-- ==== Sys2Proof/Word.lean ====
section
/-! DEFINITION. The data of the block: bytes and binary64 words (R11, K1).

A word of type F is its 64 bits: sign, 11 exponent bits, 52 fraction bits. Every bit pattern is a word, so no
word needs a well-formedness check, and `+0.0` is the word of zeros. Its arithmetic is in Machine/Float.lean. -/

namespace Sys2Proof

/-- One byte of the command storage or of the serial line (R60, R82). -/
abbrev Byte := BitVec 8

/-- A word of the type the spec writes F: IEEE 754 binary64 (R11, decision D2). -/
structure F64 where
  bits : BitVec 64
  deriving DecidableEq, Repr, Inhabited

namespace F64

/-- `+0.0`, the reset value of every register of type F. -/
def zero : F64 := ⟨0⟩

/-- The sign bit. -/
def isNeg (x : F64) : Bool := decide (2 ^ 63 ≤ x.bits.toNat)

/-- The 63 bits below the sign: biased exponent times `2^52` plus fraction. They order as the magnitudes do. -/
def mag (x : F64) : Nat := x.bits.toNat % 2 ^ 63

/-- The magnitude bits of an infinity; NaNs lie above. -/
def infMag : Nat := 2047 * 2 ^ 52

/-- Neither an infinity nor a NaN. -/
def isFinite (x : F64) : Bool := decide (x.mag < infMag)

def isNaN (x : F64) : Bool := decide (infMag < x.mag)

/-- The word with a given sign and magnitude bits. -/
def pack (neg : Bool) (m : Nat) : F64 := ⟨BitVec.ofNat 64 ((if neg then 2 ^ 63 else 0) + m)⟩

end F64
end Sys2Proof
end

