-- ==== Sys2Proof/Syntax.lean ====
section
/-! DEFINITION. The operations of the block (R80), the serial byte classes (R82) and the enumerations of R88.

One constructor of `Instr` per row of spec/opcode_table.json. What a word means is in Machine/. -/

namespace Sys2Proof

/-- The axis number `a`, one bit (R7, R80). -/
inductive AxisId where
  | axis0
  | axis1
  deriving DecidableEq, Repr, Inhabited

/-- `MR.MODE` (R34): three codes, so that the reserved code 3 cannot be written down (U4). -/
inductive Mode where
  | sensorTracking
  | scripted
  | replay
  deriving DecidableEq, Repr, Inhabited

/-- `AX[a].direction` (R29). -/
inductive Direction where
  | forward
  | reverse
  deriving DecidableEq, Repr, Inhabited

/-- A command of the FIFO (R87). -/
inductive Command where
  | noMovement
  | right
  | left
  | up
  | down
  | invalid
  deriving DecidableEq, Repr, Inhabited

/-- Four channel values of 12 bits: the live readings of a SAMPLE (R100) or `SYN[0..3]` (R43). -/
structure Channels where
  c0 : BitVec 12
  c1 : BitVec 12
  c2 : BitVec 12
  c3 : BitVec 12
  deriving DecidableEq, Repr, Inhabited

/-- The operations and the serial byte classes, a constructor per row of the opcode table. -/
inductive Instr where
  | reset
  | tick
  | btnEdge (k : BitVec 2)
  | serialRx (b : Byte)
  | sample (adc0 adc1 adc2 adc3 : BitVec 12)
  | pidStep (a : AxisId)
  | pwmStep (a : AxisId) (en : Bool)
  | aoutStep
  | gateTimeout (g : BitVec 2)
  | playbackStep
  | cmdNomove
  | cmdRight
  | cmdLeft
  | cmdUp
  | cmdDown
  | cmdEnd
  | cmdInvalid (b : Byte)
  deriving DecidableEq, Repr

/-- What is presented to the block, one operation each: an event word of a run (R81), a byte on the receive port
(R82, R216), or a micro-operation word in the place R80 gives it, inside a TICK. -/
inductive Stimulus where
  | event (w : BitVec 64)
  | serial (b : Byte)
  | tickPart (w : BitVec 64)
  deriving DecidableEq, Repr

/-- The micro-operations of R80: a run never contains them on their own. -/
def Instr.isMicro : Instr → Bool
  | .gateTimeout _ => true
  | .playbackStep => true
  | .reset | .tick | .btnEdge _ | .serialRx _ | .sample _ _ _ _ | .pidStep _ | .pwmStep _ _ | .aoutStep => false
  | .cmdNomove | .cmdRight | .cmdLeft | .cmdUp | .cmdDown | .cmdEnd | .cmdInvalid _ => false

end Sys2Proof
end

