-- ==== Sys2Proof/Config.lean ====
section
/-! DEFINITION. The parameters of the block (R7, R8), their constraints (U1), the example configurations (R10) and
the free values: what no rule of the spec states. -/

namespace Sys2Proof

/-! Parameters the source fixes (R7). -/

/-- QUEUE_CAP, the entries of the command FIFO. -/
def queueCap : Nat := 1024

/-- SENSOR_MAX, the largest 12-bit channel reading. -/
def sensorMax : Nat := 4095

/-- FULL_SCALE of the 10-bit analog output. -/
def fullScale : Nat := 1024

/-- HALF_SCALE, the midpoint of the analog output. -/
def halfScale : Nat := 512

/-- The most gates a configuration can have, one per button (R50). -/
def maxGates : Nat := 4

/-- What the fourth button does (parameter BTN3_ACTION of R8): the identity of decision D12, or an action the spec
does not know (U3), which Machine/Ops.lean takes from `Config.btn3Unknown`. -/
inductive Btn3Action where
  | identity
  | unknown
  deriving DecidableEq, Repr, Inhabited

/-- GATE_OF: the gate that guards each button (R8, R136). -/
structure GateMap where
  of0 : Nat
  of1 : Nat
  of2 : Nat
  of3 : Nat
  deriving DecidableEq, Repr, Inhabited

/-- GATE_OF(k). -/
def GateMap.of (m : GateMap) (k : BitVec 2) : Nat :=
  match k.toNat with
  | 0 => m.of0
  | 1 => m.of1
  | 2 => m.of2
  | _ => m.of3

/-- Parameters whose value the source does not give (R8). No operation writes one (R9). -/
structure Config where
  kp : F64
  ki : F64
  kd : F64
  dt : F64
  windupLimit : F64
  maxThrottle : Nat
  pwmCycleLen : Nat
  debounceTicks : Nat
  playbackTicks : Nat
  aoutTicks : Nat
  synthMax : Nat
  nGates : Nat
  gateOf : GateMap
  btn3 : Btn3Action
  joyFromReplay : Mode
  deriving DecidableEq, Repr, Inhabited

namespace Config

/-- The magnitude bits of `2^500`. -/
def magHuge : Nat := (1023 + 500) * 2 ^ 52

/-- The magnitude bits of `2^-500`. -/
def magTiny : Nat := (1023 - 500) * 2 ^ 52

/-- The constraints of R8 and U1. `-0.0` is allowed for WINDUP_LIMIT and taken as `+0.0` (`windup`). The bound
`nGates ≤ 4` is R50's. -/
def valid (c : Config) : Bool :=
  decide (c.kp.mag ≤ magHuge) && decide (c.ki.mag ≤ magHuge) && decide (c.kd.mag ≤ magHuge)
    && !c.dt.isNeg && decide (magTiny ≤ c.dt.mag) && decide (c.dt.mag ≤ magHuge)
    && (!c.windupLimit.isNeg || decide (c.windupLimit.mag = 0)) && decide (c.windupLimit.mag ≤ magHuge)
    && decide (1 ≤ c.maxThrottle) && decide (1 ≤ c.pwmCycleLen) && decide (1 ≤ c.debounceTicks)
    && decide (1 ≤ c.playbackTicks) && decide (1 ≤ c.aoutTicks)
    && decide (c.synthMax ≤ sensorMax)
    && decide (1 ≤ c.nGates) && decide (c.nGates ≤ maxGates)
    && decide (c.gateOf.of0 < c.nGates) && decide (c.gateOf.of1 < c.nGates)
    && decide (c.gateOf.of2 < c.nGates) && decide (c.gateOf.of3 < c.nGates)

/-- One gate for all four buttons (decision D14). -/
def oneGate : GateMap := ⟨0, 0, 0, 0⟩

/-- Example configuration EX1 of R10: KP 2.0, KI 0.5, KD 0.25, DT 0.5, WINDUP_LIMIT 100.0. It claims nothing about
the firmware. -/
def ex1 : Config where
  kp := ⟨0x4000000000000000⟩
  ki := ⟨0x3FE0000000000000⟩
  kd := ⟨0x3FD0000000000000⟩
  dt := ⟨0x3FE0000000000000⟩
  windupLimit := ⟨0x4059000000000000⟩
  maxThrottle := 100
  pwmCycleLen := 1000
  debounceTicks := 3
  playbackTicks := 2
  aoutTicks := 4
  synthMax := 4095
  nGates := 1
  gateOf := oneGate
  btn3 := .identity
  joyFromReplay := .replay

/-- Example configuration EX2 of R10: KP 1.0, KI 0.0, KD 0.0, DT 1.0, WINDUP_LIMIT 0.0. -/
def ex2 : Config where
  kp := ⟨0x3FF0000000000000⟩
  ki := ⟨0⟩
  kd := ⟨0⟩
  dt := ⟨0x3FF0000000000000⟩
  windupLimit := ⟨0⟩
  maxThrottle := 30
  pwmCycleLen := 100
  debounceTicks := 1
  playbackTicks := 1
  aoutTicks := 1
  synthMax := 4095
  nGates := 1
  gateOf := oneGate
  btn3 := .identity
  joyFromReplay := .replay

/-- The four rounded operations of R12. -/
inductive FloatOp where
  | add
  | sub
  | mul
  | div
  deriving DecidableEq, Repr

/-- FREE VALUE (log 5). The result of a float operation on an infinity or a NaN, of a division by zero, and of one
whose exact result lies beyond the largest finite word: "no rule says what they would do" (D29). -/
opaque freeFloat : FloatOp → F64 → F64 → F64

/-- FREE VALUE (log 5). `fround` of an infinity or a NaN; R12 and R19 define it for finite words only. -/
opaque freeRound : F64 → Int

/-- FREE VALUE (log 5). `ftrunc` of an infinity or a NaN; R12 and R19 define it for finite words only. -/
opaque freeTrunc : F64 → Int

end Config
end Sys2Proof
end

