-- ==== Sys2Proof/Machine/Float.lean ====
section
/-! DEFINITION. The floating primitives of R12 on binary64 words, in exact integer arithmetic.

Every finite word is a whole multiple of `2^-1074`; `scaled` is that whole number. An operation computes its exact
result as a fraction of two naturals in that unit and rounds it once, to nearest with ties to even, with no fused
multiply-add and no wider intermediate (R12, R19, R105). An operation the spec gives no result (an operand that is an
infinity or a NaN, a division by zero, a result beyond the largest finite word) takes a free value (D29, log 5). -/

namespace Sys2Proof.F64

/-- The unit of `scaled`: `1.0` is `2^1074` of them. -/
@[irreducible] def one1074 : Nat := 2 ^ 1074

/-- What magnitude bits stand for, in units of `2^-1074`. Exponent field 0 is subnormal (ordinary values, R19). -/
def magValue (m : Nat) : Nat :=
  if m / 2 ^ 52 = 0 then m % 2 ^ 52 else (2 ^ 52 + m % 2 ^ 52) * 2 ^ (m / 2 ^ 52 - 1)

/-- The magnitude in units of `2^-1074`. -/
def scaledAbs (x : F64) : Nat := magValue x.mag

/-- The value in units of `2^-1074`. -/
def scaled (x : F64) : Int := if x.isNeg then -(x.scaledAbs : Int) else (x.scaledAbs : Int)

/-- `n / d` rounded to the nearest natural, a tie to the even one. -/
def divNearestEven (n d : Nat) : Nat :=
  if 2 * (n % d) < d ∨ (2 * (n % d) = d ∧ n / d % 2 = 0) then n / d else n / d + 1

/-- The binary place of the last of 53 significant bits of `q`, at least 0 (the subnormal place). -/
def lastPlace (q : Nat) : Nat := Nat.log2 q - 52

/-- The magnitude bits of `n / d` units of `2^-1074`, rounded to 53 significant bits. A carry out of the fraction
moves into the exponent by itself. -/
def roundMag (n d : Nat) : Nat :=
  lastPlace (n / d) * 2 ^ 52 + divNearestEven n (d * 2 ^ lastPlace (n / d))

/-- The word of sign `neg` nearest to `n / d` units of `2^-1074`, or the free value of `op x y` beyond the largest
finite word. -/
def roundTo (op : Config.FloatOp) (x y : F64) (neg : Bool) (n d : Nat) : F64 :=
  if roundMag n d < infMag then pack neg (roundMag n d) else Config.freeFloat op x y

/-- `fneg`: sign flip, exact. -/
def fneg (x : F64) : F64 := pack (!x.isNeg) x.mag

/-- The sign of an exact sum: that of a non-zero sum; of a zero one negative when both terms are. -/
def sumNeg (x y : F64) : Bool :=
  if x.scaled + y.scaled = 0 then x.isNeg && y.isNeg else decide (x.scaled + y.scaled < 0)

/-- `x + y` rounded, as the step of the operation `op` whose operands are `u` and `v`. -/
def sum (op : Config.FloatOp) (u v x y : F64) : F64 :=
  roundTo op u v (sumNeg x y) (x.scaled + y.scaled).natAbs 1

/-- `fadd` (R12). -/
def fadd (x y : F64) : F64 :=
  if x.isFinite && y.isFinite then sum .add x y x y else Config.freeFloat .add x y

/-- `fsub` (R12). -/
def fsub (x y : F64) : F64 :=
  if x.isFinite && y.isFinite then sum .sub x y x (fneg y) else Config.freeFloat .sub x y

/-- `fmul` (R12). -/
def fmul (x y : F64) : F64 :=
  if x.isFinite && y.isFinite then
    roundTo .mul x y (x.isNeg != y.isNeg) (x.scaledAbs * y.scaledAbs) one1074
  else Config.freeFloat .mul x y

/-- `fdiv` (R12). The spec divides by DT only, which is not zero (R19). -/
def fdiv (x y : F64) : F64 :=
  if x.isFinite && y.isFinite && decide (y.scaledAbs ≠ 0) then
    roundTo .div x y (x.isNeg != y.isNeg) (x.scaledAbs * one1074) y.scaledAbs
  else Config.freeFloat .div x y

/-- `flt`: ordered, false on a NaN, zeros equal (R12). An infinity reads as `2^2098` units, above every finite word. -/
def flt (x y : F64) : Bool := !x.isNaN && !y.isNaN && decide (x.scaled < y.scaled)

/-- `fgt` (R12). -/
def fgt (x y : F64) : Bool := flt y x

/-- `of_int`, exact for a magnitude below `2^53` (R12); `of_int 0` is `+0.0`. -/
def ofInt (n : Int) : F64 := pack (decide (n < 0)) (roundMag (n.natAbs * one1074) 1)

/-- Give a natural the sign of `x`. -/
def withSign (x : F64) (n : Nat) : Int := if x.isNeg then -(n : Int) else (n : Int)

/-- `fround`: the nearest integer, a tie away from zero (R12, R107, decision D3). -/
def fround (x : F64) : Int :=
  if x.isFinite then withSign x ((2 * x.scaledAbs + one1074) / (2 * one1074)) else Config.freeRound x

/-- `ftrunc`: the integer part, toward zero (R12, R171, decision D23). -/
def ftrunc (x : F64) : Int :=
  if x.isFinite then withSign x (x.scaledAbs / one1074) else Config.freeTrunc x

end Sys2Proof.F64
end

