-- ==== Sys2Proof/WellFormed.lean ====
section
/-! DEFINITION. Which instructions a configuration has.

Every operand is typed at the width of its field (R81), so only two checks are left: a gate number below N_GATES
(R81), and CMD_INVALID's byte outside the six exact classes (R82). -/

namespace Sys2Proof

/-- The six bytes of the "accepted input alphabet" (R82): `'0'` to `'4'` and `'\r'`. -/
def inAlphabet (b : Byte) : Bool :=
  decide (b = 0x30) || decide (b = 0x31) || decide (b = 0x32) || decide (b = 0x33) || decide (b = 0x34)
    || decide (b = 0x0D)

/-- The instruction exists in a configuration with `nGates` gates. -/
def Instr.wf (nGates : Nat) : Instr → Bool
  | .gateTimeout g => decide (g.toNat < nGates)
  | .cmdInvalid b => !inAlphabet b
  | .reset | .tick | .btnEdge _ | .serialRx _ | .sample _ _ _ _ | .pidStep _ | .pwmStep _ _ | .aoutStep => true
  | .playbackStep | .cmdNomove | .cmdRight | .cmdLeft | .cmdUp | .cmdDown | .cmdEnd => true

end Sys2Proof
end

