-- ==== Sys2Proof/Decode.lean ====
section
/-! DEFINITION. Decoding (R80 to R82, R93) and, after it, encoding.

An event word is decoded field by field, a byte of the serial line by its class. The decoder is total: what encodes
no operation is rejected by name (U2). -/

namespace Sys2Proof

/-- Why a word encodes no operation (R81, R93, U2). -/
inductive DecodeError where
  /-- `op` is 10 to 15. -/
  | reservedOpcode
  /-- A bit is set that the operation does not name. -/
  | strayBits
  /-- GATE_TIMEOUT with `g` not below N_GATES. -/
  | noGate
  /-- A micro-operation on its own in a run. -/
  | microOutsideTick
  /-- Inside a TICK stands a word that is no micro-operation. -/
  | notMicro
  deriving DecidableEq, Repr

/-- `w[hi:lo]` of R14, as an unsigned number. -/
def slice (w : BitVec 64) (hi lo : Nat) : Nat := w.toNat / 2 ^ lo % 2 ^ (hi + 1 - lo)

/-- No bit of the word is set from bit `n` up. -/
def zeroFrom (n : Nat) (w : BitVec 64) : Bool := decide (w.toNat / 2 ^ n = 0)

/-- The axis a one-bit field names. -/
def axisOfBit : Nat → AxisId
  | 0 => .axis0
  | _ => .axis1

/-- Accept `i` when no bit is set from bit `n` up. -/
def checked (n : Nat) (w : BitVec 64) (i : Instr) : Except DecodeError Instr :=
  if zeroFrom n w then .ok i else .error .strayBits

/-- The operation an event word encodes, in or outside a TICK (R80, R81). -/
def decodeEvent (nGates : Nat) (w : BitVec 64) : Except DecodeError Instr :=
  match slice w 3 0 with
  | 0 => checked 4 w .reset
  | 1 => checked 4 w .tick
  | 2 => checked 6 w (.btnEdge (BitVec.ofNat 2 (slice w 5 4)))
  | 3 => checked 12 w (.serialRx (BitVec.ofNat 8 (slice w 11 4)))
  | 4 => checked 52 w (.sample (BitVec.ofNat 12 (slice w 15 4)) (BitVec.ofNat 12 (slice w 27 16))
      (BitVec.ofNat 12 (slice w 39 28)) (BitVec.ofNat 12 (slice w 51 40)))
  | 5 => checked 5 w (.pidStep (axisOfBit (slice w 4 4)))
  | 6 => checked 6 w (.pwmStep (axisOfBit (slice w 4 4)) (decide (slice w 5 5 = 1)))
  | 7 => checked 4 w .aoutStep
  | 8 =>
    if slice w 5 4 < nGates then checked 6 w (.gateTimeout (BitVec.ofNat 2 (slice w 5 4))) else .error .noGate
  | 9 => checked 4 w .playbackStep
  | _ => .error .reservedOpcode

/-- The class of a received byte (R82): the six exact values first, CMD_INVALID last (R93). -/
def decodeSerial (b : Byte) : Instr :=
  match b.toNat with
  | 0x30 => .cmdNomove
  | 0x31 => .cmdRight
  | 0x32 => .cmdLeft
  | 0x33 => .cmdUp
  | 0x34 => .cmdDown
  | 0x0D => .cmdEnd
  | _ => .cmdInvalid b

/-- The operation a stimulus presents. A run holds no micro-operation (R80, R93); the inside of a TICK holds
nothing else. -/
def decode (nGates : Nat) : Stimulus → Except DecodeError Instr
  | .event w =>
    match decodeEvent nGates w with
    | .ok i => if i.isMicro then .error .microOutsideTick else .ok i
    | .error e => .error e
  | .serial b => .ok (decodeSerial b)
  | .tickPart w =>
    match decodeEvent nGates w with
    | .ok i => if i.isMicro then .ok i else .error .notMicro
    | .error e => .error e

/-! The encoder, from the tables of R80 to R82. -/

/-- The bit of an axis number. -/
def axisBit : AxisId → Nat
  | .axis0 => 0
  | .axis1 => 1

/-- The event word as a number: each field at its place in R81. The serial classes have no event word of their own:
the number of a class is its byte. -/
def eventNumber : Instr → Nat
  | .reset => 0
  | .tick => 1
  | .btnEdge k => 2 + k.toNat * 2 ^ 4
  | .serialRx b => 3 + b.toNat * 2 ^ 4
  | .sample a0 a1 a2 a3 =>
    4 + a0.toNat * 2 ^ 4 + a1.toNat * 2 ^ 16 + a2.toNat * 2 ^ 28 + a3.toNat * 2 ^ 40
  | .pidStep a => 5 + axisBit a * 2 ^ 4
  | .pwmStep a en => 6 + axisBit a * 2 ^ 4 + en.toNat * 2 ^ 5
  | .aoutStep => 7
  | .gateTimeout g => 8 + g.toNat * 2 ^ 4
  | .playbackStep => 9
  | .cmdNomove => 0x30
  | .cmdRight => 0x31
  | .cmdLeft => 0x32
  | .cmdUp => 0x33
  | .cmdDown => 0x34
  | .cmdEnd => 0x0D
  | .cmdInvalid b => b.toNat

/-- The instruction is a class of received bytes (format SER8 of R82). -/
def Instr.isSerial : Instr → Bool
  | .cmdNomove | .cmdRight | .cmdLeft | .cmdUp | .cmdDown | .cmdEnd | .cmdInvalid _ => true
  | .reset | .tick | .btnEdge _ | .serialRx _ | .sample _ _ _ _ | .pidStep _ | .pwmStep _ _ | .aoutStep => false
  | .gateTimeout _ | .playbackStep => false

/-- The stimulus that presents an instruction. -/
def encode (i : Instr) : Stimulus :=
  if i.isSerial then .serial (BitVec.ofNat 8 (eventNumber i))
  else if i.isMicro then .tickPart (BitVec.ofNat 64 (eventNumber i))
  else .event (BitVec.ofNat 64 (eventNumber i))

/-! The opcode table's rows (R93): a word `w` selects a row when `w AND mask = match`. -/

/-- The `match` and `mask` of a table row. -/
structure Row where
  value : BitVec 64
  mask : BitVec 64
  deriving DecidableEq, Repr

/-- The ten rows of format EVT, in the order of their codes. -/
def eventRows : List Row :=
  [⟨0x0, 0xFFFFFFFFFFFFFFFF⟩, ⟨0x1, 0xFFFFFFFFFFFFFFFF⟩, ⟨0x2, 0xFFFFFFFFFFFFFFCF⟩, ⟨0x3, 0xFFFFFFFFFFFFF00F⟩,
    ⟨0x4, 0xFFF000000000000F⟩, ⟨0x5, 0xFFFFFFFFFFFFFFEF⟩, ⟨0x6, 0xFFFFFFFFFFFFFFCF⟩, ⟨0x7, 0xFFFFFFFFFFFFFFFF⟩,
    ⟨0x8, 0xFFFFFFFFFFFFFFCF⟩, ⟨0x9, 0xFFFFFFFFFFFFFFFF⟩]

/-- A word selects a row. -/
def Row.selects (r : Row) (w : BitVec 64) : Bool := decide (w &&& r.mask = r.value)

/-! Words as the opcode table numbers them. -/

/-- Where a table word is presented: 8 bits are a byte on the receive port, otherwise an event word (the bits above
`nbits` zero); the two micro-operation codes stand inside a TICK. -/
def stimulusOfTableWord (nbits w : Nat) : Option Stimulus :=
  if nbits = 8 then some (.serial (BitVec.ofNat 8 w))
  else if nbits ≤ 64 then
    let e := BitVec.ofNat 64 (w % 2 ^ nbits)
    if slice e 3 0 = 8 ∨ slice e 3 0 = 9 then some (.tickPart e) else some (.event e)
  else none

/-- The instruction the decoder reads from a table word, in the configuration of reset (N_GATES = 1, decision D14). -/
def decodeTableWord (nbits w : Nat) : Option Instr :=
  match stimulusOfTableWord nbits w with
  | none => none
  | some x =>
    match decode Config.ex1.nGates x with
    | .ok i => some i
    | .error _ => none

end Sys2Proof
end

