-- ==== Sys2Proof/Machine/State.lean ====
section
/-! DEFINITION. The state of the block (R20), why a step can stop, and the state after RESET (R230).

State is one flat record of plain data. Its registers are those of R50 under their own names; `cfg`, `env` and `tx` are
the model's own fields and no state of the spec's (R21, logs 1 to 3). -/

namespace Sys2Proof.Machine

/-- The register set of one axis (R22 to R31). -/
structure AxisRegs where
  setpoint : F64
  measured : F64
  error : F64
  previousError : F64
  integral : F64
  derivative : F64
  output : F64
  direction : Direction
  throttle : Nat
  pwmPhase : Nat
  deriving DecidableEq, Repr, Inhabited

/-- The drive pin latches of one axis, active high (R32). -/
structure Pins where
  pwm : Bool
  dirFwd : Bool
  dirRev : Bool
  deriving DecidableEq, Repr, Inhabited

/-- A debounce gate (R36, R37). -/
structure Gate where
  isOpen : Bool
  dbCnt : Nat
  deriving DecidableEq, Repr, Inhabited

/-- The command storage (R38, R60): index and byte, indices rising. An index that is not listed has no value: it has
not been written. -/
abbrev Memory := List Host.Cell

/-- The state of the block. -/
structure State where
  /-- MODEL: the parameters of R8, constants of the build that no operation writes (R9, log 1). -/
  cfg : Config
  /-- `AX[0]`. -/
  ax0 : AxisRegs
  /-- `AX[1]`. -/
  ax1 : AxisRegs
  /-- `PIN[0]`. -/
  pin0 : Pins
  /-- `PIN[1]`. -/
  pin1 : Pins
  /-- `MR.MODE` (R34). -/
  mode : Mode
  /-- `MR.SEL` (R35). -/
  sel : AxisId
  /-- `G[0]` to `G[N_GATES-1]`, gate 0 first. -/
  gates : List Gate
  /-- `Q.mem` (R38). -/
  qMem : Memory
  /-- `Q.wr` (R39). -/
  qWr : Nat
  /-- `Q.rd` (R40). -/
  qRd : Nat
  /-- `Q.count` (R41). -/
  qCount : Nat
  /-- `Q.pb_cnt` (R42). -/
  qPbCnt : Nat
  /-- `SYN[0..3]` (R43). -/
  syn : Channels
  /-- `AO.aout` (R44). -/
  aout : BitVec 10
  /-- `AO.ao_cnt` (R45). -/
  aoCnt : Nat
  /-- `AO.ao_due` (R46). -/
  aoDue : Bool
  /-- MODEL: the bytes sent so far, first to last (R84, D30, log 3). -/
  tx : List Byte
  /-- MODEL: the operations the environment presents next, head first (R80, D24, log 2). -/
  env : List Stimulus
  deriving DecidableEq, Repr, Inhabited

/-- Why the machine stops with a fault. The block itself has no fault (U9, R204). -/
inductive Fault where
  /-- Raised by a store to the command storage at an index above 1023: "indices 0 to 1023 are storage; nothing else
  exists" (R66). Safe. No state that meets the queue invariant R56 reaches it. -/
  | noSuchEntry
  deriving DecidableEq, Repr

/-- Why a step is refused. -/
inductive Refusal where
  /-- Raised by exec's arm of an instruction that has no meaning yet. Safe. No arm is one. -/
  | notModelled (mnemonic : String)
  /-- Raised by every meaning when the configuration breaks a constraint of R8 ("a model must refuse a configuration
  that breaks a constraint", U1). Safe. -/
  | invalidConfiguration
  /-- Raised by the step when the stimulus encodes no operation, or holds a micro-operation outside a TICK (R81, R93,
  U2: refuse). Safe. -/
  | undecodable (why : DecodeError)
  /-- Raised by a read of the command storage at or above `Q.count`, or of an entry that was never written (R62, U5:
  refuse). Safe. No state that meets the queue invariants reaches it. -/
  | deadEntry
  /-- Raised by `dec` of a stored byte 6 to 255 (R87, U6: refuse). Safe. -/
  | badCommandCode
  /-- Raised by a meaning whose gate number names no gate (R81, R8). Safe. -/
  | noSuchGate
  /-- Raised by the meaning of CMD_INVALID on a byte of one of the six exact classes (R82): no decoder gives that
  instruction. Safe. -/
  | wrongByteClass
  deriving DecidableEq, Repr

/-- `AX[a]` after RESET: "created at system init with all fields zeroed" (R231). -/
def AxisRegs.reset : AxisRegs where
  setpoint := F64.zero
  measured := F64.zero
  error := F64.zero
  previousError := F64.zero
  integral := F64.zero
  derivative := F64.zero
  output := F64.zero
  direction := .forward
  throttle := 0
  pwmPhase := 0

/-- `PIN[a]` after RESET. -/
def Pins.reset : Pins := ⟨false, false, false⟩

/-- `G[g]` after RESET: open, no countdown. -/
def Gate.reset : Gate := ⟨true, 0⟩

/-- Zero on every channel. -/
def Channels.zero : Channels := ⟨0, 0, 0, 0⟩

/-- The state after the first RESET in a configuration: R230, nothing written to the storage, nothing sent and nothing
presented. -/
def State.resetWith (c : Config) : State where
  cfg := c
  ax0 := AxisRegs.reset
  ax1 := AxisRegs.reset
  pin0 := Pins.reset
  pin1 := Pins.reset
  mode := .sensorTracking
  sel := .axis0
  gates := List.replicate c.nGates Gate.reset
  qMem := []
  qWr := 0
  qRd := 0
  qCount := 0
  qPbCnt := 0
  syn := Channels.zero
  aout := 0
  aoCnt := 0
  aoDue := false
  tx := []
  env := []

/-- The machine right after reset. DESIGN CHOICE (log 1): the configuration is EX1 of R10; the spec gives the
parameters no value, and no statement rests on this one. -/
def State.reset : State := State.resetWith Config.ex1

end Sys2Proof.Machine
end

