-- ==== Sys2Proof/Machine/Ops.lean ====
section
/-! DEFINITION. The shared operations of the machine: the command storage (20_memory.md), the access to the two axis
register sets, signalling a condition (R200 to R202), and what the environment presents next. -/

namespace Sys2Proof.Machine

/-- A step's outcome. -/
abbrev Result := Host.Outcome State Fault Refusal

/-- What an operation that may stop answers. -/
inductive Stop where
  | fault (r : Fault)
  | refused (r : Refusal)
  deriving DecidableEq, Repr

/-- The outcome of an operation that may stop. -/
def finish : Except Stop State → Result
  | .ok s => .next s
  | .error (.fault r) => .fault r
  | .error (.refused r) => .refused r

/-- Every operation runs in a configuration that meets the constraints of R8; another is refused (U1). -/
def configured (s : State) (r : Result) : Result :=
  if s.cfg.valid then r else .refused .invalidConfiguration

/-! ### Axis register sets and pins: the two sets do not alias (10_state.md section 2). -/

/-- `AX[a]`. -/
def State.ax (s : State) : AxisId → AxisRegs
  | .axis0 => s.ax0
  | .axis1 => s.ax1

/-- Write `AX[a]`. -/
def State.setAx (s : State) (a : AxisId) (r : AxisRegs) : State :=
  match a with
  | .axis0 => { s with ax0 := r }
  | .axis1 => { s with ax1 := r }

/-- `PIN[a]`. -/
def State.pin (s : State) : AxisId → Pins
  | .axis0 => s.pin0
  | .axis1 => s.pin1

/-- Write `PIN[a]`. -/
def State.setPin (s : State) (a : AxisId) (p : Pins) : State :=
  match a with
  | .axis0 => { s with pin0 := p }
  | .axis1 => { s with pin1 := p }

/-! ### The command storage -/

namespace Memory

/-- The byte of an index: nothing where nothing was written (log 7). -/
def read : Memory → Nat → Option Byte
  | [], _ => none
  | (a, v) :: rest, i => if i = a then some v else read rest i

/-- Write one byte, keeping the indices rising. -/
def write : Memory → Nat → Byte → Memory
  | [], i, v => [(i, v)]
  | (a, u) :: rest, i, v =>
    if i < a then (i, v) :: (a, u) :: rest
    else if i = a then (a, v) :: rest
    else (a, u) :: write rest i v

/-- Every listed index is above `lo`, and they rise. -/
def risingFrom : Nat → Memory → Bool
  | _, [] => true
  | lo, (a, _) :: rest => decide (lo ≤ a) && risingFrom (a + 1) rest

/-- The canonical form: indices strictly rising, all of them storage (R66). No entry can equal what an unlisted index
reads as, which is no value. -/
def wf (m : Memory) : Bool := risingFrom 0 m && m.all (fun c => decide (c.1 < queueCap))

end Memory

/-- `MemRead(addr, 1)` (R62): only a live entry, `addr < Q.count`, has a meaning; another read is refused (U5). -/
def memRead (s : State) (addr : Nat) : Except Stop Byte :=
  if addr < s.qCount then
    match Memory.read s.qMem addr with
    | some v => .ok v
    | none => .error (.refused .deadEntry)
  else .error (.refused .deadEntry)

/-- `MemWrite(addr, 1, v)` (R63): indices 0 to 1023 exist and no other (R66). -/
def memWrite (s : State) (addr : Nat) (v : Byte) : Except Stop State :=
  if addr < queueCap then .ok { s with qMem := Memory.write s.qMem addr v }
  else .error (.fault .noSuchEntry)

/-! ### Signalling

The block takes no exception: a condition saves nothing, moves nothing and returns nowhere (R209, R210). Raising one
is sending its bytes. -/

/-- `tx(b0, b1, ...)`: append to the transmit stream, which never fills (R84, D30). -/
def transmit (bs : List Byte) (s : State) : State := { s with tx := s.tx ++ bs }

/-- The conditions of R200. -/
inductive Condition where
  | queueFull
  | invalidByte
  deriving DecidableEq, Repr

/-- The code of a condition on the wire (R200): `EOB`, or `e`. -/
def Condition.code : Condition → List Byte
  | .queueFull => [0x45, 0x4F, 0x42]
  | .invalidByte => [0x65]

/-- `raise`: the operation signals on its transmit output and completes (R15, R200). -/
def raiseCondition (c : Condition) (s : State) : State := transmit c.code s

/-! ### The fourth button -/

end Sys2Proof.Machine

namespace Sys2Proof.Config

/-- FREE VALUE (log 9). BTN3_ACTION when it is not the identity: "what its acceptance does besides closing the gate
is unknown" (U3). -/
opaque btn3Unknown : Machine.State → Machine.State

end Sys2Proof.Config

namespace Sys2Proof.Machine

/-- BTN3_ACTION (R8, R144). An unknown action is a function on the block's state that must leave the gates alone; it
does not touch the model's own fields either. -/
def btn3Action (s : State) : State :=
  match s.cfg.btn3 with
  | .identity => s
  | .unknown =>
    let t := Config.btn3Unknown s
    { t with gates := s.gates, cfg := s.cfg, env := s.env, tx := s.tx }

/-! ### Fetch -/

/-- What the environment presents next, and the state once it has been taken. -/
def fetch (s : State) : Option (Stimulus × State) :=
  match s.env with
  | [] => none
  | x :: rest => some (x, { s with env := rest })

/-- Put a stimulus before all others. -/
def present (x : Stimulus) (s : State) : State := { s with env := x :: s.env }

end Sys2Proof.Machine
end

