-- ==== Sys2Proof/Machine/Operands.lean ====
section
/-! DEFINITION. The operand forms: received bytes and commands (R83, R84, R87), the synthetic values of a command
(R85), the sample a mode selects (R100, R101), clamping (R13, R86) and the modular counters (R18). -/

namespace Sys2Proof.Machine

/-- `decode(b)` of R83, from a byte to a command. -/
def commandOf (b : Byte) : Command :=
  if b = 0x30 ∨ b = 0x0D then .noMovement
  else if b = 0x31 then .right
  else if b = 0x32 then .left
  else if b = 0x33 then .up
  else if b = 0x34 then .down
  else .invalid

/-- The reply byte to an accepted byte (R84). -/
def echoOf (b : Byte) : Byte :=
  if b = 0x0D then 0x72
  else if b = 0x30 ∨ b = 0x31 ∨ b = 0x32 ∨ b = 0x33 ∨ b = 0x34 then b
  else 0x65

/-- `enc(c)` of R87. -/
def enc : Command → Byte
  | .noMovement => 0
  | .right => 1
  | .left => 2
  | .up => 3
  | .down => 4
  | .invalid => 5

/-- `dec(v)` of R87, the inverse of `enc` on 0 to 5; no other byte is a code (U6). -/
def dec (v : Byte) : Except Stop Command :=
  match v.toNat with
  | 0 => .ok .noMovement
  | 1 => .ok .right
  | 2 => .ok .left
  | 3 => .ok .up
  | 4 => .ok .down
  | 5 => .ok .invalid
  | _ => .error (.refused .badCommandCode)

/-- SYNTH_MAX as a 12-bit channel value (R8, R85). -/
def synthMaxOf (c : Config) : BitVec 12 := BitVec.ofNat 12 c.synthMax

/-- `synth(c)` of R85: the four values a command writes. -/
def synth (cfg : Config) : Command → Channels
  | .noMovement => ⟨0, 0, 0, 0⟩
  | .right => ⟨synthMaxOf cfg, 0, 0, 0⟩
  | .left => ⟨0, synthMaxOf cfg, 0, 0⟩
  | .up => ⟨0, 0, synthMaxOf cfg, 0⟩
  | .down => ⟨0, 0, 0, synthMaxOf cfg⟩
  | .invalid => ⟨0, 0, 0, 0⟩

/-- The sample source: the live channels in SensorTracking, `SYN` otherwise (R100, R101). -/
def sampleSource (s : State) (adc : Channels) : Channels :=
  match s.mode with
  | .sensorTracking => adc
  | .scripted => s.syn
  | .replay => s.syn

/-- `of_int(x - y)`: the signed difference of two channels, exact (R18, R100, R102). -/
def channelDiff (x y : BitVec 12) : F64 := F64.ofInt ((x.toNat : Int) - (y.toNat : Int))

/-- A channel reading of a wider type is clamped to 4095, never rejected (R86, D28). -/
def clampReading (n : Nat) : BitVec 12 := BitVec.ofNat 12 (min n sensorMax)

/-- `clamp(v, lo, hi)` of R13 on naturals. -/
def clampNat (v lo hi : Nat) : Nat := min (max v lo) hi

/-- The modular increment of R18. -/
def incMod (x n : Nat) : Nat := (x + 1) % n

/-- The other axis: `1 - MR.SEL` (R143). -/
def otherAxis : AxisId → AxisId
  | .axis0 => .axis1
  | .axis1 => .axis0

/-- WINDUP_LIMIT, its `-0.0` taken as `+0.0` (U1). -/
def windup (c : Config) : F64 := if c.windupLimit.mag = 0 then F64.zero else c.windupLimit

end Sys2Proof.Machine
end

