-- ==== Sys2Proof/Machine/Flags.lean ====
section
/-! DEFINITION. The one-bit state of the block (R33) and how each bit is computed: direction (R108), the PWM level and
the direction pins (R120, R126), the gate latch (R36), `ao_due` (R46), and the derived output `adc_en` (R47). -/

namespace Sys2Proof.Machine

/-- `AX[a].direction` from the raw difference: above zero Forward, otherwise, a zero included, Reverse (R108). -/
def directionOf (measured : F64) : Direction :=
  if F64.fgt measured F64.zero then .forward else .reverse

/-- `unit`: the division comes first and truncates (R120, R121). -/
def pwmUnit (c : Config) : Nat := c.pwmCycleLen / c.maxThrottle

/-- `thr`, the phases the pin is on (R120). -/
def pwmThreshold (c : Config) (throttle : Nat) : Nat := throttle * pwmUnit c

/-- `level`: off whenever the axis is disabled (R120, R125). -/
def pwmLevel (c : Config) (throttle phase : Nat) (en : Bool) : Bool :=
  en && decide (phase < pwmThreshold c throttle)

/-- The three pin latches a PWM step writes (R120); the direction pins are one-hot (R126). -/
def pinsOf (c : Config) (r : AxisRegs) (en : Bool) : Pins where
  pwm := pwmLevel c r.throttle r.pwmPhase en
  dirFwd := decide (r.direction = .forward)
  dirRev := decide (r.direction = .reverse)

/-- `on_timeout()` on one gate: it reopens (R133). -/
def Gate.timeout (g : Gate) : Gate := { g with isOpen := true }

/-- An accepted edge on one gate: it closes and the countdown is loaded (R131). -/
def Gate.close (g : Gate) (ticks : Nat) : Gate := { g with isOpen := false, dbCnt := ticks }

/-- The tick's part on one gate: a closed gate counts down and reopens when the count reaches 0 (R182). The decrement
is done only on a count of at least 1 (R18), so a closed gate at 0, which R55 rules out, stays as it is (log 13). -/
def Gate.tick (g : Gate) : Gate :=
  if g.isOpen then g
  else if g.dbCnt = 1 then Gate.timeout { g with dbCnt := 0 }
  else { g with dbCnt := g.dbCnt - 1 }

/-- The output `adc_en`: 1 exactly in SensorTracking (R47). -/
def State.adcEn (s : State) : Bool := decide (s.mode = .sensorTracking)

/-- `AO.aout` from the selected error: bias, clamp on the floating value, then truncate (R170, R171). -/
def aoutOf (error : F64) : BitVec 10 :=
  let v := F64.fadd error (F64.ofInt halfScale)
  if F64.flt v F64.zero then 0
  else if F64.fgt v (F64.ofInt (fullScale - 1)) then BitVec.ofNat 10 (fullScale - 1)
  else BitVec.ofInt 10 (F64.ftrunc v)

end Sys2Proof.Machine
end

