-- ==== Sys2Proof/Machine/Pid.lean ====
section
/-! DEFINITION. Sample acquisition and the PID step (40_pid.md): SAMPLE and PID_STEP. -/

namespace Sys2Proof.Machine

/-- SAMPLE: one reading of the selected source into both `measured` registers (R100, R101). -/
def execSample (adc0 adc1 adc2 adc3 : BitVec 12) (s : State) : Result :=
  configured s <|
    let v := sampleSource s ⟨adc0, adc1, adc2, adc3⟩
    .next { s with
      ax0 := { s.ax0 with measured := channelDiff v.c0 v.c1 }
      ax1 := { s.ax1 with measured := channelDiff v.c2 v.c3 } }

/-- `e`: step 1 of R103. -/
def pidError (r : AxisRegs) : F64 := F64.fsub r.setpoint r.measured

/-- `i0`: the accumulation of step 2. -/
def pidAccumulated (c : Config) (r : AxisRegs) : F64 := F64.fadd r.integral (F64.fmul (pidError r) c.dt)

/-- `i1`: the clamp of step 2, the bounds kept (R106). -/
def clampIntegral (limit x : F64) : F64 :=
  if F64.fgt x limit then limit
  else if F64.flt x (F64.fneg limit) then F64.fneg limit
  else x

/-- `i1` of R103. -/
def pidIntegral (c : Config) (r : AxisRegs) : F64 := clampIntegral (windup c) (pidAccumulated c r)

/-- `d`: step 3, on the `previous_error` the step before left (R104). -/
def pidDerivative (c : Config) (r : AxisRegs) : F64 :=
  F64.fdiv (F64.fsub (pidError r) r.previousError) c.dt

/-- `o`: step 4, associated to the left, no product fused (R105), the integral clamped (R104). -/
def pidOutput (c : Config) (r : AxisRegs) : F64 :=
  F64.fadd (F64.fadd (F64.fmul c.kp (pidError r)) (F64.fmul c.ki (pidIntegral c r)))
    (F64.fmul c.kd (pidDerivative c r))

/-- Step 6: `clamp(|fround(o)|, 1, MAX_THROTTLE)` on naturals of any size (R107). -/
def throttleOf (c : Config) (o : F64) : Nat := clampNat (F64.fround o).natAbs 1 c.maxThrottle

/-- The register set of an axis after a PID step (R103). -/
def pidUpdate (c : Config) (r : AxisRegs) : AxisRegs :=
  { r with
    error := pidError r
    integral := pidIntegral c r
    derivative := pidDerivative c r
    output := pidOutput c r
    previousError := pidError r
    throttle := throttleOf c (pidOutput c r)
    direction := directionOf r.measured }

/-- PID_STEP(a): the control law on one axis; the enable plays no part (R103, R109). -/
def execPidStep (a : AxisId) (s : State) : Result :=
  configured s (.next (s.setAx a (pidUpdate s.cfg (s.ax a))))

end Sys2Proof.Machine
end

