-- ==== Sys2Proof/Machine/Pwm.lean ====
section
/-! DEFINITION. The PWM duty generator (41_pwm.md): PWM_STEP. -/

namespace Sys2Proof.Machine

/-- PWM_STEP(a, en): the three pin latches of the axis from its throttle, phase and direction (R120). -/
def execPwmStep (a : AxisId) (en : Bool) (s : State) : Result :=
  configured s (.next (s.setPin a (pinsOf s.cfg (s.ax a) en)))

end Sys2Proof.Machine
end

