-- ==== Sys2Proof/Machine/Reset.lean ====
section
/-! DEFINITION. RESET (70_reset_and_hazards.md section 1). -/

namespace Sys2Proof.Machine

/-- The registers RESET writes (R230). The storage keeps its bytes, which nothing can read (R233, U5, log 7); the
parameters, the bytes already sent and the operations to come are not touched (R233). -/
def resetState (s : State) : State :=
  { State.resetWith s.cfg with qMem := s.qMem, tx := s.tx, env := s.env }

/-- RESET (R230). -/
def execReset (s : State) : Result := configured s (.next (resetState s))

end Sys2Proof.Machine
end

