-- ==== Sys2Proof/Machine/Selector.lean ====
section
/-! DEFINITION. The output selector (45_output_selector.md): AOUT_STEP. -/

namespace Sys2Proof.Machine

/-- AOUT_STEP: when an update is due, put out the selected axis's error and clear the request (R170). -/
def execAoutStep (s : State) : Result :=
  configured s <|
    if s.aoDue then .next { s with aout := aoutOf (s.ax s.sel).error, aoDue := false } else .next s

end Sys2Proof.Machine
end

