-- ==== Sys2Proof/Machine/Mode.lean ====
section
/-! DEFINITION. The mode register file (43_mode.md): what an accepted edge does, `ACTION(k)`. -/

namespace Sys2Proof.Machine

/-- ACTION(0), joystick-toggle: where the mode goes (R141, decision D13 for Replay). -/
def joystickToggle (c : Config) : Mode → Mode
  | .sensorTracking => .scripted
  | .scripted => .sensorTracking
  | .replay => c.joyFromReplay

/-- ACTION(1), replay-toggle: where the mode goes (R142). -/
def replayToggle : Mode → Mode
  | .replay => .sensorTracking
  | .sensorTracking => .replay
  | .scripted => .replay

/-- ACTION(k) (R140 to R144). -/
def buttonAction (k : BitVec 2) (s : State) : State :=
  match k.toNat with
  | 0 => { s with mode := joystickToggle s.cfg s.mode }
  | 1 => { s with mode := replayToggle s.mode }
  | 2 => { s with sel := otherAxis s.sel }
  | _ => btn3Action s

end Sys2Proof.Machine
end

