-- ==== Sys2Proof/Machine/Debounce.lean ====
section
/-! DEFINITION. The debounce gate (42_debounce.md): BTN_EDGE and GATE_TIMEOUT. -/

namespace Sys2Proof.Machine

/-- BTN_EDGE(k): an open gate accepts the edge, runs ACTION(k) and closes for DEBOUNCE_TICKS ticks; a closed gate drops
it without a trace (R131, R132). A gate GATE_OF names but the state lacks is refused. -/
def execBtnEdge (k : BitVec 2) (s : State) : Result :=
  configured s <|
    match s.gates[s.cfg.gateOf.of k]? with
    | none => .refused .noSuchGate
    | some g =>
      if g.isOpen then
        .next { buttonAction k s with
          gates := s.gates.set (s.cfg.gateOf.of k) (g.close s.cfg.debounceTicks) }
      else .next s

/-- GATE_TIMEOUT(g): reopens the gate unconditionally (R133). A micro-operation: the decoder gives it only inside a
TICK, and TICK runs the same `Gate.timeout`. -/
def execGateTimeout (g : BitVec 2) (s : State) : Result :=
  configured s <|
    match s.gates[g.toNat]? with
    | none => .refused .noSuchGate
    | some x => .next { s with gates := s.gates.set g.toNat x.timeout }

end Sys2Proof.Machine
end

