-- ==== Sys2Proof/Machine/Fifo.lean ====
section
/-! DEFINITION. The command FIFO (44_command_fifo.md): the producer SERIAL_RX with its seven byte classes, and the
consumer PLAYBACK_STEP. -/

namespace Sys2Proof.Machine

/-- The append of R150 with its registers: cursor and count step; the first entry of an empty queue zeroes the read
cursor and the cadence counter (R158). -/
def append (c : Command) (s : State) : Except Stop State :=
  match memWrite s s.qWr (enc c) with
  | .error e => .error e
  | .ok t =>
    .ok { t with
      qWr := s.qWr + 1
      qCount := s.qCount + 1
      qRd := if s.qCount = 0 then 0 else s.qRd
      qPbCnt := if s.qCount = 0 then 0 else s.qPbCnt }

/-- The reply to an accepted byte: InvalidByte is raised for the command Invalid, the echo is sent for any other. -/
def reply (c : Command) (echo : Byte) (s : State) : State :=
  match c with
  | .invalid => raiseCondition .invalidByte s
  | .noMovement | .right | .left | .up | .down => transmit [echo] s

/-- R150 for a byte that stands for command `c` with reply `echo`. The capacity test comes first and reads `Q.count`
only (R159, R208). -/
def receive (c : Command) (echo : Byte) (s : State) : Except Stop State :=
  if s.qCount = queueCap then .ok (raiseCondition .queueFull s)
  else
    match append c s with
    | .error e => .error e
    | .ok t => .ok (reply c echo t)

/-- SERIAL_RX(b) (R150). -/
def execSerialRx (b : Byte) (s : State) : Result :=
  configured s (finish (receive (commandOf b) (echoOf b) s))

/-- CMD_NOMOVE, byte `'0'` (R151). -/
def execCmdNomove (s : State) : Result := configured s (finish (receive .noMovement 0x30 s))

/-- CMD_RIGHT, byte `'1'` (R152). -/
def execCmdRight (s : State) : Result := configured s (finish (receive .right 0x31 s))

/-- CMD_LEFT, byte `'2'` (R153). -/
def execCmdLeft (s : State) : Result := configured s (finish (receive .left 0x32 s))

/-- CMD_UP, byte `'3'` (R154). -/
def execCmdUp (s : State) : Result := configured s (finish (receive .up 0x33 s))

/-- CMD_DOWN, byte `'4'` (R155). -/
def execCmdDown (s : State) : Result := configured s (finish (receive .down 0x34 s))

/-- CMD_END, byte `'\r'`, the end-marker: an ordinary NoMovement entry with the reply `'r'` (R156). -/
def execCmdEnd (s : State) : Result := configured s (finish (receive .noMovement 0x72 s))

/-- CMD_INVALID, any byte outside the alphabet (R157). On a byte of an exact class, which no decoder gives, it is
refused. -/
def execCmdInvalid (b : Byte) (s : State) : Result :=
  configured s <|
    if inAlphabet b then .refused .wrongByteClass else finish (receive .invalid 0x65 s)

/-- PLAYBACK_STEP (R160): play the entry at the read cursor into `SYN`, then advance, or clear the queue when it was
the last (R162). An empty queue does nothing (R163). -/
def playback (s : State) : Except Stop State :=
  if s.qCount = 0 then .ok s
  else
    match memRead s s.qRd with
    | .error e => .error e
    | .ok v =>
      match dec v with
      | .error e => .error e
      | .ok c =>
        if s.qRd + 1 = s.qCount then
          .ok { s with syn := synth s.cfg c, qCount := 0, qRd := 0, qWr := 0 }
        else .ok { s with syn := synth s.cfg c, qRd := s.qRd + 1 }

/-- PLAYBACK_STEP as an operation of its own: a micro-operation, given only inside a TICK, which runs the same
`playback`. -/
def execPlaybackStep (s : State) : Result := configured s (finish (playback s))

end Sys2Proof.Machine
end

