-- ==== Sys2Proof/Machine/Tick.lean ====
section
/-! DEFINITION. The periodic tick (46_tick_and_main.md section 1): TICK. -/

namespace Sys2Proof.Machine

/-- Part 1: both phases step together (R181). -/
def tickPhase (s : State) : State :=
  { s with
    ax0 := { s.ax0 with pwmPhase := incMod s.ax0.pwmPhase s.cfg.pwmCycleLen }
    ax1 := { s.ax1 with pwmPhase := incMod s.ax1.pwmPhase s.cfg.pwmCycleLen } }

/-- Part 2: every closed gate counts down (R182). -/
def tickGates (s : State) : State := { s with gates := s.gates.map Gate.tick }

/-- Part 3: a counter found at 0 plays a command; the counter steps after it (R183). -/
def tickPlayback (s : State) : Except Stop State :=
  match (if s.qPbCnt = 0 then playback s else .ok s) with
  | .error e => .error e
  | .ok t => .ok { t with qPbCnt := incMod s.qPbCnt s.cfg.playbackTicks }

/-- Part 4: the wrap of the output cadence makes an update due (R184). -/
def tickAout (s : State) : State :=
  if s.aoCnt + 1 = s.cfg.aoutTicks then { s with aoCnt := 0, aoDue := true } else { s with aoCnt := s.aoCnt + 1 }

/-- TICK: the four parts write disjoint registers, so their order does not show (R180, R185). -/
def execTick (s : State) : Result :=
  configured s (finish (tickPlayback (tickAout (tickGates (tickPhase s)))))

end Sys2Proof.Machine
end

