-- ==== Sys2Proof/Machine/Dispatch.lean ====
section
/-! DEFINITION. The dispatch: one arm per constructor of Instr, one direct call of its meaning. -/

namespace Sys2Proof.Machine

def exec (i : Instr) (s : State) : Host.Outcome State Fault Refusal :=
  match i with
  | .reset => Sys2Proof.Machine.execReset s
  | .tick => Sys2Proof.Machine.execTick s
  | .btnEdge k => Sys2Proof.Machine.execBtnEdge k s
  | .serialRx b => Sys2Proof.Machine.execSerialRx b s
  | .sample adc0 adc1 adc2 adc3 => Sys2Proof.Machine.execSample adc0 adc1 adc2 adc3 s
  | .pidStep a => Sys2Proof.Machine.execPidStep a s
  | .pwmStep a en => Sys2Proof.Machine.execPwmStep a en s
  | .aoutStep => Sys2Proof.Machine.execAoutStep s
  | .gateTimeout g => Sys2Proof.Machine.execGateTimeout g s
  | .playbackStep => Sys2Proof.Machine.execPlaybackStep s
  | .cmdNomove => Sys2Proof.Machine.execCmdNomove s
  | .cmdRight => Sys2Proof.Machine.execCmdRight s
  | .cmdLeft => Sys2Proof.Machine.execCmdLeft s
  | .cmdUp => Sys2Proof.Machine.execCmdUp s
  | .cmdDown => Sys2Proof.Machine.execCmdDown s
  | .cmdEnd => Sys2Proof.Machine.execCmdEnd s
  | .cmdInvalid b => Sys2Proof.Machine.execCmdInvalid b s

end Sys2Proof.Machine
end

