-- ==== Sys2Proof/Machine/Step.lean ====
section
/-! DEFINITION. One step: take the operation the environment presents next and run it as one atomic transition (R16,
R222). -/

namespace Sys2Proof.Machine

/-- One step. With nothing presented the block waits (R232, log 2); a stimulus that encodes no operation is refused
(U2). -/
def step (s : State) : Host.Outcome State Fault Refusal :=
  match fetch s with
  | none => .next s
  | some (x, t) =>
    match decode s.cfg.nGates x with
    | .error e => .refused (.undecodable e)
    | .ok i => exec i t

/-- The state whose next step runs the table word `w` of `nbits` bits (log 2, log 8). -/
def State.withFetchWord (s : State) (nbits w : Nat) : State :=
  match stimulusOfTableWord nbits w with
  | none => s
  | some x => present x s

end Sys2Proof.Machine
end

