-- ==== Sys2Proof/Machine/Ports.lean ====
section
/-! DEFINITION. The boundary of the block (R47, R48, R216): what can be seen from outside, and which operation a
change of an input port is (R137). -/

namespace Sys2Proof.Machine

/-- The outputs: "the block has no other output" (R48). -/
structure Outputs where
  pin0 : Pins
  pin1 : Pins
  aout : BitVec 10
  adcEn : Bool
  tx : List Byte
  deriving DecidableEq, Repr

/-- What the outside sees of a state. -/
def State.outputs (s : State) : Outputs where
  pin0 := s.pin0
  pin1 := s.pin1
  aout := s.aout
  adcEn := s.adcEn
  tx := s.tx

/-- Button line `k` goes from one level to another: a fall from 1 to 0 is BTN_EDGE(k), a release is no event
(R137). -/
def buttonLine (k : BitVec 2) (before after : Bool) : Option Instr :=
  if before && !after then some (.btnEdge k) else none

/-- The input strobes of R216 that present an operation, with the values their ports hold at that moment. -/
inductive Strobe where
  | rst
  | tick
  | rxByte (b : Byte)
  | sample (adc : Channels)
  | pid (a : AxisId)
  | pwmStep (a : AxisId) (axisEn : Bool)
  | aoutStep
  deriving DecidableEq, Repr

/-- The operation a strobe presents (R216). -/
def Strobe.operation : Strobe → Instr
  | .rst => .reset
  | .tick => .tick
  | .rxByte b => .serialRx b
  | .sample v => .sample v.c0 v.c1 v.c2 v.c3
  | .pid a => .pidStep a
  | .pwmStep a en => .pwmStep a en
  | .aoutStep => .aoutStep

end Sys2Proof.Machine
end

