-- ==== Sys2Proof/Machine/Registers.lean ====
section
/-! DEFINITION. The register list of R50: every register but the storage, by its number. The numbers are the spec's
labels (D27): nothing in the block reads or writes a register by number, so this is a view of the state and no port. -/

namespace Sys2Proof.Machine

/-- What a register holds: a binary64 word or a natural (a one-bit register is 0 or 1). -/
inductive RegValue where
  | float (x : F64)
  | nat (n : Nat)
  deriving DecidableEq, Repr

/-- The code of a mode (R34). -/
def modeCode : Mode → Nat
  | .sensorTracking => 0
  | .scripted => 1
  | .replay => 2

/-- The code of a direction (R29). -/
def directionCode : Direction → Nat
  | .forward => 0
  | .reverse => 1

/-- Registers 0 to 9 of an axis (R50). -/
def AxisRegs.register (r : AxisRegs) : Nat → Option RegValue
  | 0 => some (.float r.setpoint)
  | 1 => some (.float r.measured)
  | 2 => some (.float r.error)
  | 3 => some (.float r.previousError)
  | 4 => some (.float r.integral)
  | 5 => some (.float r.derivative)
  | 6 => some (.float r.output)
  | 7 => some (.nat (directionCode r.direction))
  | 8 => some (.nat r.throttle)
  | 9 => some (.nat r.pwmPhase)
  | _ => none

/-- Registers 10 to 12 of an axis, its pins. -/
def Pins.register (p : Pins) : Nat → Option RegValue
  | 10 => some (.nat p.pwm.toNat)
  | 11 => some (.nat p.dirFwd.toNat)
  | 12 => some (.nat p.dirRev.toNat)
  | _ => none

/-- Registers 34 to 41: gate `g` has 34 + 2g and 35 + 2g. -/
def gateRegister (gs : List Gate) (n : Nat) : Option RegValue :=
  match gs[(n - 34) / 2]? with
  | none => none
  | some g => some (.nat (if n % 2 = 0 then g.isOpen.toNat else g.dbCnt))

/-- The register with a number of R50; no register has another number. -/
def State.register (s : State) (n : Nat) : Option RegValue :=
  if n < 10 then s.ax0.register n
  else if n < 16 then s.pin0.register n
  else if n < 26 then s.ax1.register (n - 16)
  else if n < 32 then s.pin1.register (n - 16)
  else if n = 32 then some (.nat (modeCode s.mode))
  else if n = 33 then some (.nat (axisBit s.sel))
  else if n < 42 then gateRegister s.gates n
  else if n = 42 then some (.nat s.qWr)
  else if n = 43 then some (.nat s.qRd)
  else if n = 44 then some (.nat s.qCount)
  else if n = 45 then some (.nat s.qPbCnt)
  else if n = 46 then some (.nat s.syn.c0.toNat)
  else if n = 47 then some (.nat s.syn.c1.toNat)
  else if n = 48 then some (.nat s.syn.c2.toNat)
  else if n = 49 then some (.nat s.syn.c3.toNat)
  else if n = 50 then some (.nat s.aout.toNat)
  else if n = 51 then some (.nat s.aoCnt)
  else if n = 52 then some (.nat s.aoDue.toNat)
  else none

end Sys2Proof.Machine
end

