-- ==== Sys2Proof/Machine/Trace.lean ====
section
/-! DEFINITION. Trace lines and pseudo-operations (R91, R92, R186): what a run is written down as. They carry no claim
about the hardware (D26); a main-loop pass stays six separate operations (R187). -/

namespace Sys2Proof.Machine

/-- A line of a trace. Channel readings are decimal numbers of any size and are clamped (R86, D28). -/
inductive TraceLine where
  | reset
  | tick (times : Nat)
  | btn (k : BitVec 2)
  | rx (times : Nat) (b : Byte)
  | rxs (text : List Byte)
  | sample (c0 c1 c2 c3 : Nat)
  | pid (a : AxisId)
  | pwm (a : AxisId) (en : Bool)
  | aout
  | main (c0 c1 c2 c3 : Nat) (en0 en1 : Bool)
  deriving DecidableEq, Repr

/-- SAMPLE with clamped readings. -/
def sampleOf (c0 c1 c2 c3 : Nat) : Instr :=
  .sample (clampReading c0) (clampReading c1) (clampReading c2) (clampReading c3)

/-- MAIN_PASS: the six steps of one pass of the main loop, in order (R186). -/
def mainPass (c0 c1 c2 c3 : Nat) (en0 en1 : Bool) : List Instr :=
  [sampleOf c0 c1 c2 c3, .pidStep .axis0, .pidStep .axis1, .pwmStep .axis0 en0, .pwmStep .axis1 en1, .aoutStep]

/-- The operations a line stands for (R91, R92). -/
def TraceLine.operations : TraceLine → List Instr
  | .reset => [.reset]
  | .tick n => List.replicate n .tick
  | .btn k => [.btnEdge k]
  | .rx n b => List.replicate n (.serialRx b)
  | .rxs text => text.map .serialRx
  | .sample c0 c1 c2 c3 => [sampleOf c0 c1 c2 c3]
  | .pid a => [.pidStep a]
  | .pwm a en => [.pwmStep a en]
  | .aout => [.aoutStep]
  | .main c0 c1 c2 c3 en0 en1 => mainPass c0 c1 c2 c3 en0 en1

/-- What the environment presents for a trace: one event word per operation (R81, R91). -/
def traceStimuli (t : List TraceLine) : List Stimulus := (t.flatMap TraceLine.operations).map encode

end Sys2Proof.Machine
end

