-- ==== Sys2Proof/Safety.lean ====
section
/-! DEFINITION. What the claims speak of: runs of operations, the invariants of 10_state.md section 12, the writers of
R51, and states that differ only where nothing can look (U5). -/

namespace Sys2Proof.Machine

/-- A sequence of operations, stopping at the first that stops (R16, R70). -/
def execAll : List Instr → State → Result
  | [], s => .next s
  | i :: is, s =>
    match exec i s with
    | .next t => execAll is t
    | .fault r => .fault r
    | .refused r => .refused r

/-! ### Invariants (R52 to R59) -/

/-- `x <= y` on words: neither a NaN, and ordered as values. -/
def fle (x y : F64) : Bool := !x.isNaN && !y.isNaN && decide (x.scaled ≤ y.scaled)

/-- An integer from -4095 to 4095 held exactly (R58). -/
def IsReading (x : F64) : Prop := ∃ n : Int, -4095 ≤ n ∧ n ≤ 4095 ∧ x = F64.ofInt n

/-- R52: the integral is within the windup limit and no NaN. -/
def IntegralInv (c : Config) (r : AxisRegs) : Prop :=
  fle (F64.fneg (windup c)) r.integral = true ∧ fle r.integral (windup c) = true

/-- R53, first half. -/
def ThrottleInv (c : Config) (r : AxisRegs) : Prop := r.throttle ≤ c.maxThrottle

/-- R54: both phases in range and equal. -/
def PhaseInv (s : State) : Prop :=
  s.ax0.pwmPhase < s.cfg.pwmCycleLen ∧ s.ax1.pwmPhase = s.ax0.pwmPhase

/-- R55 for one gate: open exactly at 0, closed from 1 to DEBOUNCE_TICKS. -/
def GateInv (c : Config) (g : Gate) : Prop := (g.isOpen = true ↔ g.dbCnt = 0) ∧ g.dbCnt ≤ c.debounceTicks

/-- The gates of R20 are there, and each meets R55. -/
def GatesInv (s : State) : Prop := s.gates.length = s.cfg.nGates ∧ ∀ g ∈ s.gates, GateInv s.cfg g

/-- R56: the cursors of the queue. -/
def QueueInv (s : State) : Prop :=
  s.qCount ≤ queueCap ∧ s.qWr = s.qCount ∧ (0 < s.qCount → s.qRd < s.qCount) ∧ (s.qCount = 0 → s.qRd = 0)

/-- The live entries of the storage have been written and hold command codes (R63, R66, U6). -/
def StorageInv (s : State) : Prop :=
  Memory.wf s.qMem = true ∧ ∀ i, i < s.qCount → ∃ c, Memory.read s.qMem i = some (enc c)

/-- R57: each SYN is 0 or SYNTH_MAX, and at most one of the four is not 0. -/
def SynInv (c : Config) (v : Channels) : Prop :=
  (v.c0 = 0 ∨ v.c0 = synthMaxOf c) ∧ (v.c1 = 0 ∨ v.c1 = synthMaxOf c) ∧
    (v.c2 = 0 ∨ v.c2 = synthMaxOf c) ∧ (v.c3 = 0 ∨ v.c3 = synthMaxOf c) ∧
    ([v.c0, v.c1, v.c2, v.c3].filter (fun x => decide (x ≠ 0))).length ≤ 1

/-- The ranges of the cadence counters (R42, R45). -/
def CadenceInv (s : State) : Prop := s.qPbCnt < s.cfg.playbackTicks ∧ s.aoCnt < s.cfg.aoutTicks

/-- R58 and R59 for one axis: setpoint zero, exact readings, nothing that is an infinity or a NaN. -/
def AxisInv (c : Config) (r : AxisRegs) : Prop :=
  r.setpoint = F64.zero ∧ IsReading r.measured ∧ IsReading r.error ∧ IsReading r.previousError ∧
    IntegralInv c r ∧ r.derivative.isFinite = true ∧ r.output.isFinite = true ∧ ThrottleInv c r

/-- Every invariant of 10_state.md section 12 together, in a configuration that meets its constraints and whose fourth
button is the identity (decision D12; an unknown action could break any of them). -/
structure Inv (s : State) : Prop where
  config : s.cfg.valid = true
  btn3 : s.cfg.btn3 = .identity
  axis0 : AxisInv s.cfg s.ax0
  axis1 : AxisInv s.cfg s.ax1
  phase : PhaseInv s
  gates : GatesInv s
  queue : QueueInv s
  storage : StorageInv s
  syn : SynInv s.cfg s.syn
  cadence : CadenceInv s

/-- The environment presents no micro-operation on its own: "a run never contains them" (R80). -/
def IsRun (s : State) : Prop := ∀ w, Stimulus.tickPart w ∉ s.env

/-- No register of type F holds an infinity or a NaN (R59). -/
def AxisRegs.allFinite (r : AxisRegs) : Bool :=
  r.setpoint.isFinite && r.measured.isFinite && r.error.isFinite && r.previousError.isFinite && r.integral.isFinite
    && r.derivative.isFinite && r.output.isFinite

/-! ### Who writes what (R51) -/

/-- The numbers (R50) of the registers an operation may write: its W column in R51. -/
def writes (c : Config) : Instr → List Nat
  | .reset => List.range 53
  | .tick => [9, 25] ++ (List.range 8).map (· + 34) ++ [42, 43, 44, 45, 46, 47, 48, 49, 51, 52]
  | .btnEdge k =>
    [34 + 2 * c.gateOf.of k, 35 + 2 * c.gateOf.of k] ++
      (if k = 0 ∨ k = 1 then [32] else if k = 2 then [33] else [])
  | .serialRx _ | .cmdNomove | .cmdRight | .cmdLeft | .cmdUp | .cmdDown | .cmdEnd | .cmdInvalid _ => [42, 43, 44, 45]
  | .sample _ _ _ _ => [1, 17]
  | .pidStep a => [2, 3, 4, 5, 6, 7, 8].map (· + 16 * axisBit a)
  | .pwmStep a _ => [10, 11, 12].map (· + 16 * axisBit a)
  | .aoutStep => [50, 52]
  | .gateTimeout g => [34 + 2 * g.toNat]
  | .playbackStep => [42, 43, 44, 46, 47, 48, 49]

/-- The operation receives a serial byte: SERIAL_RX or one of its classes. -/
def receivedByte : Instr → Option Byte
  | .serialRx b => some b
  | .cmdNomove => some 0x30
  | .cmdRight => some 0x31
  | .cmdLeft => some 0x32
  | .cmdUp => some 0x33
  | .cmdDown => some 0x34
  | .cmdEnd => some 0x0D
  | .cmdInvalid b => some b
  | .reset | .tick | .btnEdge _ | .sample _ _ _ _ | .pidStep _ | .pwmStep _ _ | .aoutStep => none
  | .gateTimeout _ | .playbackStep => none

/-! ### States that differ only in dead entries (U5) -/

/-- The same state but for the storage outside the live entries. -/
def SameButDead (s t : State) : Prop :=
  { s with qMem := [] } = { t with qMem := [] } ∧ ∀ i, i < s.qCount → Memory.read s.qMem i = Memory.read t.qMem i

/-- Two outcomes that cannot be told apart. -/
def SameOutcome : Result → Result → Prop
  | .next s, .next t => SameButDead s t
  | .fault a, .fault b => a = b
  | .refused a, .refused b => a = b
  | _, _ => False

end Sys2Proof.Machine
end

