-- ==== Sys2Proof/Certificates/Slice0/Obligations.lean ====
section
/-! DEFINITION. The statements for the provers. Each docstring cites what it formalises; "log n" is
notes/assumptions/n.md. -/

open Sys2Proof Sys2Proof.Machine

/-! ### Encoding -/

/-- R81, R82: words written out from the tables decode to the operations they stand for, and words that encode no
operation are refused (V-ENC1, V-ENC2). The event word is the spec's own encoding (D26). -/
def Obligations.TableWordsDecode : Prop :=
  decodeTableWord 64 0x0 = some .reset ∧ decodeTableWord 64 0x1 = some .tick ∧
  decodeTableWord 64 0x22 = some (.btnEdge 2) ∧ decodeTableWord 64 0xD33 = some (.serialRx 0xD3) ∧
  decodeTableWord 64 0x0008008001900644 = some (.sample 100 400 2048 2048) ∧
  decodeTableWord 64 0x15 = some (.pidStep .axis1) ∧ decodeTableWord 64 0x36 = some (.pwmStep .axis1 true) ∧
  decodeTableWord 64 0x16 = some (.pwmStep .axis1 false) ∧ decodeTableWord 64 0x7 = some .aoutStep ∧
  decodeTableWord 64 0x8 = some (.gateTimeout 0) ∧ decodeTableWord 64 0x9 = some .playbackStep ∧
  decodeTableWord 8 0x34 = some .cmdDown ∧ decodeTableWord 8 0x0D = some .cmdEnd ∧
  decodeTableWord 8 0x41 = some (.cmdInvalid 0x41) ∧
  decodeTableWord 64 0xA = none ∧ decodeTableWord 64 0x11 = none ∧ decodeTableWord 64 0x42 = none ∧
  decodeTableWord 64 0x1003 = none ∧ decodeTableWord 64 0x0010000000000004 = none ∧
  decodeTableWord 64 0x25 = none ∧ decodeTableWord 64 0x18 = none

/-- R81, R82: decoding the encoding of a well-formed instruction gives it back, every operand at every value. -/
def Obligations.DecodeInvertsEncode : Prop :=
  ∀ (n : Nat) (i : Instr), i.wf n = true → decode n (encode i) = .ok i

/-- R81, R82: each stimulus has one meaning: what a stimulus decodes to is well formed and encodes to that stimulus, so
no bit of it was dropped. -/
def Obligations.EncodeInvertsDecode : Prop :=
  ∀ (n : Nat) (x : Stimulus) (i : Instr), decode n x = .ok i → i.wf n = true ∧ encode i = x

/-- R81, R93: the event words that encode an operation are those that select a row of the opcode table by its mask and
match, GATE_TIMEOUT's with a gate number below N_GATES. -/
def Obligations.EventWordsAreTheTableRows : Prop :=
  ∀ (n : Nat) (w : BitVec 64), (∃ i, decodeEvent n w = .ok i) ↔
    ∃ r ∈ eventRows, r.selects w = true ∧ (r.value = 8 → slice w 5 4 < n)

/-! ### The step -/

/-- R16, R80: when what is presented next decodes, the step takes it and is the execution of that instruction. -/
def Obligations.StepRunsTheDecodedInstruction : Prop :=
  ∀ (s : State) (x : Stimulus) (rest : List Stimulus) (i : Instr), s.env = x :: rest →
    decode s.cfg.nGates x = .ok i → step s = exec i { s with env := rest }

/-- R81, U2: a stimulus that encodes no operation is refused by name; with nothing presented the block waits (R232; the
waiting step is the model's choice, log 2). -/
def Obligations.StepRefusesWhatEncodesNothing : Prop :=
  (∀ (s : State) (x : Stimulus) (rest : List Stimulus) (e : DecodeError), s.env = x :: rest →
    decode s.cfg.nGates x = .error e → step s = .refused (.undecodable e)) ∧
  (∀ s : State, s.env = [] → step s = .next s)

/-- R80, R93: an event word with the code of a micro-operation is refused in a run, whatever its other bits. -/
def Obligations.MicroOperationsAreRefusedInARun : Prop :=
  ∀ (s : State) (w : BitVec 64) (rest : List Stimulus), s.env = .event w :: rest →
    slice w 3 0 = 8 ∨ slice w 3 0 = 9 → ∃ e, step s = .refused (.undecodable e)

/-- Log 8: a table word put where the step fetches is the one the very next step runs, and nothing else changed. -/
def Obligations.FetchedTableWordRuns : Prop :=
  ∀ (s : State) (nbits w : Nat) (x : Stimulus) (i : Instr), stimulusOfTableWord nbits w = some x →
    decode s.cfg.nGates x = .ok i → step (s.withFetchWord nbits w) = exec i s

/-- U1, R8: a configuration that breaks a constraint is refused by every operation. -/
def Obligations.InvalidConfigurationIsRefused : Prop :=
  ∀ (i : Instr) (s : State), s.cfg.valid = false → exec i s = .refused .invalidConfiguration

/-! ### RESET -/

/-- R230 (with the reset values of decision D25): what RESET leaves in every register, in every configuration. That the
storage keeps its bytes is the model's choice (log 7). -/
def Obligations.ResetGivesEveryRegisterItsValue : Prop :=
  ∀ s : State, s.cfg.valid = true → ∃ t, exec .reset s = .next t ∧
    (∀ a, t.ax a = ⟨F64.zero, F64.zero, F64.zero, F64.zero, F64.zero, F64.zero, F64.zero, .forward, 0, 0⟩) ∧
    (∀ a, t.pin a = ⟨false, false, false⟩) ∧ t.mode = .sensorTracking ∧ t.sel = .axis0 ∧
    t.gates = List.replicate s.cfg.nGates ⟨true, 0⟩ ∧ t.qWr = 0 ∧ t.qRd = 0 ∧ t.qCount = 0 ∧ t.qPbCnt = 0 ∧
    t.syn = ⟨0, 0, 0, 0⟩ ∧ t.aout = 0 ∧ t.aoCnt = 0 ∧ t.aoDue = false ∧
    t.qMem = s.qMem ∧ t.cfg = s.cfg ∧ t.tx = s.tx ∧ t.env = s.env

/-- R233 (decision D25): RESET in any two states of one configuration gives the same state but for the storage, the
bytes already sent and what is still to come. -/
def Obligations.ResetForgetsTheStateBefore : Prop :=
  ∀ s u s' u' : State, s.cfg = u.cfg → exec .reset s = .next s' → exec .reset u = .next u' →
    { s' with qMem := [], tx := [], env := [] } = { u' with qMem := [], tx := [], env := [] }

/-! ### Floating point (R12; decision D2) -/

/-- The rounded word `r` is a nearest finite word to `e / d` units of `2^-1074`, and has an even last bit when another
finite word is as near. -/
def Sys2Proof.Machine.NearestEven (r : F64) (e : Int) (d : Nat) : Prop :=
  r.isFinite = true ∧
  (∀ z : F64, z.isFinite = true → |r.scaled * d - e| ≤ |z.scaled * d - e|) ∧
  (∀ z : F64, z.isFinite = true → z.scaled ≠ r.scaled → |r.scaled * d - e| = |z.scaled * d - e| → r.mag % 2 = 0)

/-- R12: sums and differences are rounded once, to nearest, ties to even, whenever the exact result lies below
`2^1024 - 2^970`, where binary64 has a nearest finite word (beyond it: log 5). -/
def Obligations.SumsAreCorrectlyRounded : Prop :=
  ∀ x y : F64, x.isFinite = true → y.isFinite = true →
    (|x.scaled + y.scaled| < 2 ^ 2098 - 2 ^ 2044 → NearestEven (F64.fadd x y) (x.scaled + y.scaled) 1) ∧
    (|x.scaled - y.scaled| < 2 ^ 2098 - 2 ^ 2044 → NearestEven (F64.fsub x y) (x.scaled - y.scaled) 1)

/-- R12: products are rounded once, to nearest, ties to even. The exact product is a multiple of `2^-2148`. -/
def Obligations.ProductsAreCorrectlyRounded : Prop :=
  ∀ x y : F64, x.isFinite = true → y.isFinite = true →
    |x.scaled * y.scaled| < (2 ^ 2098 - 2 ^ 2044) * F64.one1074 →
    NearestEven (F64.fmul x y) (x.scaled * y.scaled) F64.one1074

/-- R12: quotients by a word above zero (DT) are rounded once, to nearest, ties to even. -/
def Obligations.QuotientsAreCorrectlyRounded : Prop :=
  ∀ x y : F64, x.isFinite = true → y.isFinite = true → 0 < y.scaled →
    |x.scaled * F64.one1074| < (2 ^ 2098 - 2 ^ 2044) * y.scaled →
    NearestEven (F64.fdiv x y) (x.scaled * F64.one1074) y.scaledAbs

/-- R12, R107, R171: `fround` is the nearest integer with ties away from zero (D3), `ftrunc` the integer part toward
zero (D23). `one1074` is 1.0 in the unit of `scaled`. -/
def Obligations.RoundAndTruncateAreTheIntegersTheySay : Prop :=
  ∀ x : F64, x.isFinite = true →
    2 * |F64.fround x * F64.one1074 - x.scaled| ≤ F64.one1074 ∧
    (2 * |F64.fround x * F64.one1074 - x.scaled| = F64.one1074 → |x.scaled| < |F64.fround x * F64.one1074|) ∧
    |F64.ftrunc x * F64.one1074| ≤ |x.scaled| ∧ |x.scaled| < |F64.ftrunc x * F64.one1074| + F64.one1074 ∧
    0 ≤ F64.ftrunc x * x.scaled

/-- R12: `of_int` is exact: an integer of magnitude below `2^53` becomes the finite word of just that value, with the
sign bit of a negative one only. It covers every reading of R58. -/
def Obligations.IntegersConvertExactly : Prop :=
  ∀ n : Int, |n| < 2 ^ 53 →
    (F64.ofInt n).isFinite = true ∧ (F64.ofInt n).scaled = n * F64.one1074 ∧ ((F64.ofInt n).isNeg = true ↔ n < 0)

/-! ### SAMPLE and PID_STEP -/

/-- R100, R101 (D6, D10): both `measured` registers take the exact differences of the selected source, the live
channels in SensorTracking and SYN in the two other modes; nothing else changes. That `F64.ofInt` of a difference is
exact is `IntegersConvertExactly`. -/
def Obligations.SampleTakesTheSelectedSource : Prop :=
  ∀ (s : State) (adc0 adc1 adc2 adc3 : BitVec 12), s.cfg.valid = true →
    (s.mode = .sensorTracking → exec (.sample adc0 adc1 adc2 adc3) s = .next { s with
      ax0 := { s.ax0 with measured := F64.ofInt (adc0.toNat - adc1.toNat) }
      ax1 := { s.ax1 with measured := F64.ofInt (adc2.toNat - adc3.toNat) } }) ∧
    (s.mode ≠ .sensorTracking → exec (.sample adc0 adc1 adc2 adc3) s = .next { s with
      ax0 := { s.ax0 with measured := F64.ofInt (s.syn.c0.toNat - s.syn.c1.toNat) }
      ax1 := { s.ax1 with measured := F64.ofInt (s.syn.c2.toNat - s.syn.c3.toNat) } })

/-- R103: the six steps of the control law, each name on the right the value before the step, and nothing but the
register set of the axis changes. A WINDUP_LIMIT of -0.0 counts as +0.0 (U1). -/
def Obligations.PidStepFollowsTheControlLaw : Prop :=
  ∀ (s : State) (a : AxisId), s.cfg.valid = true →
    ∃ e t i0 i1 d o limit : F64, ∃ dir : Direction,
      limit = (if s.cfg.windupLimit.mag = 0 then F64.zero else s.cfg.windupLimit) ∧
      e = F64.fsub (s.ax a).setpoint (s.ax a).measured ∧
      t = F64.fmul e s.cfg.dt ∧
      i0 = F64.fadd (s.ax a).integral t ∧
      i1 = (if F64.fgt i0 limit then limit else if F64.flt i0 (F64.fneg limit) then F64.fneg limit else i0) ∧
      d = F64.fdiv (F64.fsub e (s.ax a).previousError) s.cfg.dt ∧
      o = F64.fadd (F64.fadd (F64.fmul s.cfg.kp e) (F64.fmul s.cfg.ki i1)) (F64.fmul s.cfg.kd d) ∧
      dir = (if F64.fgt (s.ax a).measured F64.zero then .forward else .reverse) ∧
      exec (.pidStep a) s = .next (s.setAx a { s.ax a with
        error := e, integral := i1, derivative := d, output := o, previousError := e,
        throttle := min (max (F64.fround o).natAbs 1) s.cfg.maxThrottle, direction := dir })

/-- R53: the throttle never passes MAX_THROTTLE; a PID step leaves it at least 1, and only RESET and the axis's own
PID steps write it. A fourth button whose action is unknown is left out (D12). -/
def Obligations.ThrottleStaysInItsRange : Prop :=
  ∀ (i : Instr) (s t : State) (a : AxisId), s.cfg.btn3 = .identity → exec i s = .next t →
    ((s.ax a).throttle ≤ s.cfg.maxThrottle → (t.ax a).throttle ≤ t.cfg.maxThrottle) ∧
    (i = .pidStep a → 1 ≤ (t.ax a).throttle ∧ (t.ax a).throttle ≤ t.cfg.maxThrottle) ∧
    (i ≠ .reset → 1 ≤ (s.ax a).throttle → 1 ≤ (t.ax a).throttle)

/-- R108 (D7): after a PID step on a reading `n` the direction is Forward exactly when `n` is above zero, whatever the
sign of the output. -/
def Obligations.DirectionIsTheSignOfTheReading : Prop :=
  ∀ (s t : State) (a : AxisId) (n : Int), -4095 ≤ n → n ≤ 4095 → (s.ax a).measured = F64.ofInt n →
    exec (.pidStep a) s = .next t → ((t.ax a).direction = .forward ↔ 0 < n)

/-- R108, R111 (D6): with the setpoint at +0.0 the error of a reading `n` is exactly `-n`, and so is the previous error
it leaves. -/
def Obligations.ErrorIsTheNegatedReading : Prop :=
  ∀ (s t : State) (a : AxisId) (n : Int), -4095 ≤ n → n ≤ 4095 → (s.ax a).measured = F64.ofInt n →
    (s.ax a).setpoint = F64.zero → exec (.pidStep a) s = .next t →
    (t.ax a).error = F64.ofInt (-n) ∧ (t.ax a).previousError = F64.ofInt (-n)

/-- R52: whatever operation runs, the integral of both axes stays within the windup limit and is no NaN. -/
def Obligations.IntegralStaysWithinTheWindupLimit : Prop :=
  ∀ (i : Instr) (s t : State), s.cfg.btn3 = .identity → AxisInv s.cfg s.ax0 → AxisInv s.cfg s.ax1 →
    exec i s = .next t → IntegralInv t.cfg t.ax0 ∧ IntegralInv t.cfg t.ax1

/-- R59: no operation leaves an infinity or a NaN in a register of type F. -/
def Obligations.RegistersStayFinite : Prop :=
  ∀ (i : Instr) (s t : State), s.cfg.btn3 = .identity → AxisInv s.cfg s.ax0 → AxisInv s.cfg s.ax1 →
    exec i s = .next t → t.ax0.allFinite = true ∧ t.ax1.allFinite = true

/-- R186 (D31): the axes share no state, so the order of the two PID steps of a pass, of its two PWM steps, and of a PID
step of either axis and a PWM step of the other cannot be observed. -/
def Obligations.StepsOfTheTwoAxesCommute : Prop :=
  ∀ (s : State) (en0 en1 : Bool),
    execAll [.pidStep .axis0, .pidStep .axis1] s = execAll [.pidStep .axis1, .pidStep .axis0] s ∧
    execAll [.pwmStep .axis0 en0, .pwmStep .axis1 en1] s = execAll [.pwmStep .axis1 en1, .pwmStep .axis0 en0] s ∧
    execAll [.pidStep .axis0, .pwmStep .axis1 en1] s = execAll [.pwmStep .axis1 en1, .pidStep .axis0] s ∧
    execAll [.pidStep .axis1, .pwmStep .axis0 en0] s = execAll [.pwmStep .axis0 en0, .pidStep .axis1] s

/-! ### PWM_STEP -/

/-- R120: the three pin latches of the axis, the level off when disabled, and nothing else. -/
def Obligations.PwmStepWritesThePins : Prop :=
  ∀ (s : State) (a : AxisId) (en : Bool), s.cfg.valid = true →
    exec (.pwmStep a en) s = .next (s.setPin a
      ⟨en && decide ((s.ax a).pwmPhase < (s.ax a).throttle * (s.cfg.pwmCycleLen / s.cfg.maxThrottle)),
        decide ((s.ax a).direction = .forward), decide ((s.ax a).direction = .reverse)⟩)

/-- The level a PWM step of an enabled axis writes at a phase. -/
def Sys2Proof.Machine.levelAtPhase (s : State) (a : AxisId) (p : Nat) : Bool :=
  match exec (.pwmStep a true) (s.setAx a { s.ax a with pwmPhase := p }) with
  | .next t => (t.pin a).pwm
  | _ => false

/-- R122: over one cycle the level is on for exactly `throttle * (PWM_CYCLE_LEN div MAX_THROTTLE)` phases, the lowest
ones, and that number never exceeds the cycle. -/
def Obligations.OnDurationOfACycle : Prop :=
  ∀ (s : State) (a : AxisId), s.cfg.valid = true → (s.ax a).throttle ≤ s.cfg.maxThrottle →
    (List.range s.cfg.pwmCycleLen).filter (levelAtPhase s a) =
      List.range ((s.ax a).throttle * (s.cfg.pwmCycleLen / s.cfg.maxThrottle)) ∧
    (s.ax a).throttle * (s.cfg.pwmCycleLen / s.cfg.maxThrottle) ≤ s.cfg.pwmCycleLen

/-! ### The gate, the buttons and the mode -/

/-- R131: an open gate accepts the edge: the action of the button runs, the gate closes and the countdown is loaded; a
closed gate drops it. -/
def Obligations.ButtonEdgeConsultsItsGate : Prop :=
  ∀ (s : State) (k : BitVec 2) (g : Gate), s.cfg.valid = true → s.gates[s.cfg.gateOf.of k]? = some g →
    (g.isOpen = true → exec (.btnEdge k) s = .next { buttonAction k s with
      gates := s.gates.set (s.cfg.gateOf.of k) ⟨false, s.cfg.debounceTicks⟩ }) ∧
    (g.isOpen = false → exec (.btnEdge k) s = .next s)

/-- R132: however many edges arrive, on whatever buttons of a closed gate's group, they leave no trace. -/
def Obligations.DroppedEdgesLeaveNoTrace : Prop :=
  ∀ (s : State) (g : Nat) (x : Gate) (ks : List (BitVec 2)), s.cfg.valid = true → s.gates[g]? = some x →
    x.isOpen = false → (∀ k ∈ ks, s.cfg.gateOf.of k = g) → execAll (ks.map .btnEdge) s = .next s

/-- R133: GATE_TIMEOUT reopens the gate and changes nothing else. -/
def Obligations.GateTimeoutReopensTheGate : Prop :=
  ∀ (s : State) (g : BitVec 2) (x : Gate), s.cfg.valid = true → s.gates[g.toNat]? = some x →
    exec (.gateTimeout g) s = .next { s with gates := s.gates.set g.toNat ⟨true, x.dbCnt⟩ }

/-- R135 (D15): after an accepted edge the gate is closed with DEBOUNCE_TICKS - n to go after n ticks, and open from the
DEBOUNCE_TICKS-th tick on. -/
def Obligations.DebounceWindowLastsItsTicks : Prop :=
  ∀ (s u t : State) (k : BitVec 2) (g : Gate) (n : Nat), s.gates[s.cfg.gateOf.of k]? = some g → g.isOpen = true →
    exec (.btnEdge k) s = .next u → execAll (List.replicate n .tick) u = .next t →
    t.gates[s.cfg.gateOf.of k]? =
      some (if n < s.cfg.debounceTicks then ⟨false, s.cfg.debounceTicks - n⟩ else ⟨true, 0⟩)

/-- R141 (D13 for Replay): an accepted joystick-toggle edge moves the mode and its gate and nothing else. -/
def Obligations.JoystickToggleMovesTheMode : Prop :=
  ∀ (s : State) (g : Gate), s.cfg.valid = true → s.gates[s.cfg.gateOf.of0]? = some g → g.isOpen = true →
    exec (.btnEdge 0) s = .next { s with
      gates := s.gates.set s.cfg.gateOf.of0 ⟨false, s.cfg.debounceTicks⟩
      mode := match s.mode with
        | .sensorTracking => .scripted
        | .scripted => .sensorTracking
        | .replay => s.cfg.joyFromReplay }

/-- R142: an accepted replay-toggle edge enters Replay, or leaves it for SensorTracking, and moves its gate and nothing
else. -/
def Obligations.ReplayToggleMovesTheMode : Prop :=
  ∀ (s : State) (g : Gate), s.cfg.valid = true → s.gates[s.cfg.gateOf.of1]? = some g → g.isOpen = true →
    exec (.btnEdge 1) s = .next { s with
      gates := s.gates.set s.cfg.gateOf.of1 ⟨false, s.cfg.debounceTicks⟩
      mode := if s.mode = .replay then .sensorTracking else .replay }

/-- R143: an accepted output-select edge toggles MR.SEL, does not write AO.aout, and moves its gate. -/
def Obligations.OutputSelectTogglesTheAxis : Prop :=
  ∀ (s : State) (g : Gate), s.cfg.valid = true → s.gates[s.cfg.gateOf.of2]? = some g → g.isOpen = true →
    exec (.btnEdge 2) s = .next { s with
      gates := s.gates.set s.cfg.gateOf.of2 ⟨false, s.cfg.debounceTicks⟩
      sel := if s.sel = .axis0 then .axis1 else .axis0 }

/-- R144 (D12, U3): an accepted edge on the fourth button closes its gate. With BTN3_ACTION the identity nothing else
changes; whatever it is, the other gates, the parameters and the bytes sent do not (log 9). -/
def Obligations.FourthButtonClosesItsGate : Prop :=
  ∀ (s : State) (g : Gate), s.cfg.valid = true → s.gates[s.cfg.gateOf.of3]? = some g → g.isOpen = true →
    ∃ t, exec (.btnEdge 3) s = .next t ∧ t.gates = s.gates.set s.cfg.gateOf.of3 ⟨false, s.cfg.debounceTicks⟩ ∧
      t.cfg = s.cfg ∧ t.tx = s.tx ∧
      (s.cfg.btn3 = .identity → t = { s with gates := s.gates.set s.cfg.gateOf.of3 ⟨false, s.cfg.debounceTicks⟩ })

/-- R145 (D12, D13): but for RESET, the mode moves only by an accepted edge on button 0 or 1, along the arcs of the
graph; no other operation writes it. -/
def Obligations.ModeMovesOnlyByAcceptedEdges : Prop :=
  ∀ (i : Instr) (s t : State), s.cfg.btn3 = .identity → i ≠ .reset → exec i s = .next t → t.mode ≠ s.mode →
    ∃ k g, i = .btnEdge k ∧ s.gates[s.cfg.gateOf.of k]? = some g ∧ g.isOpen = true ∧
      ((k = 0 ∧ ((s.mode = .sensorTracking ∧ t.mode = .scripted) ∨ (s.mode = .scripted ∧ t.mode = .sensorTracking) ∨
          (s.mode = .replay ∧ t.mode = s.cfg.joyFromReplay))) ∨
        (k = 1 ∧ ((s.mode = .replay ∧ t.mode = .sensorTracking) ∨ (s.mode ≠ .replay ∧ t.mode = .replay))))

/-! ### The command FIFO -/

/-- R150: a received byte is answered `EOB` by a full queue, which does not change; otherwise its command is stored at
the write cursor, cursor and count step, the first entry of an empty queue zeroes the read cursor and the cadence
counter, and the reply is sent. No other entry of the storage and no other register changes. -/
def Obligations.ReceivedByteIsAppendedOrRejected : Prop :=
  ∀ (s : State) (b : Byte), s.cfg.valid = true → (s.qCount ≠ 1024 → s.qWr < 1024) →
    ∃ t, exec (.serialRx b) s = .next t ∧
      if s.qCount = 1024 then t = { s with tx := s.tx ++ [0x45, 0x4F, 0x42] }
      else Memory.read t.qMem s.qWr = some (enc (commandOf b)) ∧
        (∀ a, a ≠ s.qWr → Memory.read t.qMem a = Memory.read s.qMem a) ∧
        t = { s with
          qMem := t.qMem
          qWr := s.qWr + 1
          qCount := s.qCount + 1
          qRd := if s.qCount = 0 then 0 else s.qRd
          qPbCnt := if s.qCount = 0 then 0 else s.qPbCnt
          tx := s.tx ++ [echoOf b] }

/-- R151 to R157 (D18): each byte class on a queue that is not full: the code it stores, the byte it echoes, and the
registers of R150. -/
def Obligations.EachByteClassStoresItsCommand : Prop :=
  ∀ (s : State) (i : Instr) (code echo : Byte), s.cfg.valid = true → s.qCount ≠ 1024 → s.qWr < 1024 →
    ((i, code, echo) ∈ [(Instr.cmdNomove, (0 : Byte), (0x30 : Byte)), (.cmdRight, 1, 0x31), (.cmdLeft, 2, 0x32),
        (.cmdUp, 3, 0x33), (.cmdDown, 4, 0x34), (.cmdEnd, 0, 0x72)] ∨
      ∃ b, inAlphabet b = false ∧ i = .cmdInvalid b ∧ code = 5 ∧ echo = 0x65) →
    ∃ t, exec i s = .next t ∧ Memory.read t.qMem s.qWr = some code ∧
      (∀ a, a ≠ s.qWr → Memory.read t.qMem a = Memory.read s.qMem a) ∧
      t = { s with
        qMem := t.qMem
        qWr := s.qWr + 1
        qCount := s.qCount + 1
        qRd := if s.qCount = 0 then 0 else s.qRd
        qPbCnt := if s.qCount = 0 then 0 else s.qPbCnt
        tx := s.tx ++ [echo] }

/-- R82, R89, R93: a byte on the receive port and the event word SERIAL_RX of that byte do the same in every state. -/
def Obligations.ByteClassesAgreeWithSerialRx : Prop :=
  ∀ (s : State) (b : Byte), exec (decodeSerial b) s = exec (.serialRx b) s

/-- R159: a full queue answers every byte, valid or not, with `EOB` and nothing changes. -/
def Obligations.FullQueueRejectsEveryByte : Prop :=
  ∀ (s : State) (i : Instr) (b : Byte), s.cfg.valid = true → s.qCount = 1024 → receivedByte i = some b →
    i.wf s.cfg.nGates = true → exec i s = .next { s with tx := s.tx ++ [0x45, 0x4F, 0x42] }

/-- R76: on an empty queue exactly 1024 appends succeed, each entry holding its command in arrival order, and the next
byte is rejected with the queue unchanged. -/
def Obligations.QueueHoldsExactly1024 : Prop :=
  ∀ (s : State) (bs : List Byte) (b : Byte), s.cfg.valid = true → s.qCount = 0 → s.qWr = 0 → bs.length = 1024 →
    ∃ t, execAll (bs.map .serialRx) s = .next t ∧ t.qCount = 1024 ∧ t.qWr = 1024 ∧
      (∀ j, j < 1024 → Memory.read t.qMem j = bs[j]?.map (fun c => enc (commandOf c))) ∧
      t.tx = s.tx ++ bs.map echoOf ∧
      exec (.serialRx b) t = .next { t with tx := t.tx ++ [0x45, 0x4F, 0x42] }

/-- The command mapping as R161 and the table of R85 write it, `max` standing for SYNTH_MAX. -/
def Sys2Proof.Machine.commandMapping (max : BitVec 12) : Command → Channels
  | .noMovement => ⟨0, 0, 0, 0⟩
  | .right => ⟨max, 0, 0, 0⟩
  | .left => ⟨0, max, 0, 0⟩
  | .up => ⟨0, 0, max, 0⟩
  | .down => ⟨0, 0, 0, max⟩
  | .invalid => ⟨0, 0, 0, 0⟩

/-- R160, R161: the entry at the read cursor is played: all four of SYN take the values the command mapping gives it,
with `max` SYNTH_MAX; the cursor advances, or the queue is cleared after the last entry, the write cursor with it; an
empty queue does nothing. -/
def Obligations.PlaybackPlaysTheEntryAtTheCursor : Prop :=
  ∀ (s : State) (c : Command), s.cfg.valid = true →
    (s.qCount = 0 → exec .playbackStep s = .next s) ∧
    (s.qRd < s.qCount → Memory.read s.qMem s.qRd = some (enc c) →
      ∃ max : BitVec 12, max.toNat = s.cfg.synthMax ∧
        exec .playbackStep s = .next (if s.qRd + 1 = s.qCount then
            { s with syn := commandMapping max c, qCount := 0, qRd := 0, qWr := 0 }
          else { s with syn := commandMapping max c, qRd := s.qRd + 1 }))

/-- R164, R166: bytes appended to an empty queue are played in arrival order, each once: the k-th playback step writes
the values the command mapping gives the k-th byte, and the last clears the queue. -/
def Obligations.QueuePlaysInArrivalOrder : Prop :=
  ∀ (s : State) (bs : List Byte) (b : Byte) (k : Nat), s.cfg.valid = true → s.qCount = 0 → s.qWr = 0 →
    bs.length ≤ 1024 → bs[k]? = some b →
    ∃ t, execAll (bs.map .serialRx ++ List.replicate (k + 1) .playbackStep) s = .next t ∧
      (∃ max : BitVec 12, max.toNat = s.cfg.synthMax ∧ t.syn = commandMapping max (commandOf b)) ∧
      (t.qRd, t.qWr, t.qCount) = if k + 1 = bs.length then (0, 0, 0) else (k + 1, bs.length, bs.length)

/-! ### AOUT_STEP -/

/-- R170: a due update puts out the biased error of the selected axis, clamped as a floating value and then truncated,
and clears the request; without a request nothing happens. 512.0 and 1023.0 are written as their words. -/
def Obligations.AnalogOutputFollowsTheSelectedError : Prop :=
  ∀ (s : State) (v : F64), s.cfg.valid = true → v = F64.fadd (s.ax s.sel).error ⟨0x4080000000000000⟩ →
    (s.aoDue = true → exec .aoutStep s = .next { s with
      aoDue := false
      aout := if F64.flt v F64.zero then 0 else if F64.fgt v ⟨0x408FF80000000000⟩ then 1023
        else BitVec.ofInt 10 (F64.ftrunc v) }) ∧
    (s.aoDue = false → exec .aoutStep s = .next s)

/-- R170, R172 (D23): for an integer error `n` of a reading the output is `clamp(n + 512, 0, 1023)` exactly. -/
def Obligations.AnalogOutputOfAnIntegerError : Prop :=
  ∀ (s : State) (n : Int), s.cfg.valid = true → s.aoDue = true → -4095 ≤ n → n ≤ 4095 →
    (s.ax s.sel).error = F64.ofInt n →
    ∃ t, exec .aoutStep s = .next t ∧ (t.aout.toNat : Int) = min (max (n + 512) 0) 1023 ∧ t.aoDue = false

/-! ### TICK -/

/-- R180: the four parts of a tick: both phases step and wrap; closed gates count down and reopen at 0 (a closed gate
at 0, which R55 rules out, stays: log 13); a cadence counter found at 0 plays a command, and the counter steps; the
output cadence steps and its wrap makes an update due. A tick completes whenever the entry it would play is live. -/
def Obligations.TickAdvancesEveryCounter : Prop :=
  ∀ s : State, s.cfg.valid = true →
    (s.qPbCnt = 0 → s.qCount ≠ 0 → s.qRd < s.qCount ∧ ∃ c, Memory.read s.qMem s.qRd = some (enc c)) →
    ∃ u, (if s.qPbCnt = 0 then exec .playbackStep s = .next u else u = s) ∧
      exec .tick s = .next { u with
        ax0 := { s.ax0 with pwmPhase := (s.ax0.pwmPhase + 1) % s.cfg.pwmCycleLen }
        ax1 := { s.ax1 with pwmPhase := (s.ax1.pwmPhase + 1) % s.cfg.pwmCycleLen }
        gates := s.gates.map (fun g => if g.isOpen then g else ⟨decide (g.dbCnt = 1), g.dbCnt - 1⟩)
        qPbCnt := (s.qPbCnt + 1) % s.cfg.playbackTicks
        aoCnt := if s.aoCnt + 1 = s.cfg.aoutTicks then 0 else s.aoCnt + 1
        aoDue := s.aoDue || decide (s.aoCnt + 1 = s.cfg.aoutTicks) }

/-! ### The whole machine -/

/-- R9: "No operation of the block writes a parameter". -/
def Obligations.NoOperationWritesAParameter : Prop :=
  (∀ (i : Instr) (s t : State), exec i s = .next t → t.cfg = s.cfg) ∧
  (∀ s t : State, step s = .next t → t.cfg = s.cfg)

/-- R62, R66, R81, R82 with U5, U6: where no rule gives an effect, an operation stops under a name of its own: a read of a
dead or unwritten entry, a byte that is no command code, a store outside the storage, a gate that is not there, a byte
of an exact class given to CMD_INVALID. No state that meets the invariants reaches one. -/
def Obligations.WhatNoRuleReachesStopsByName : Prop :=
  ∀ s : State, s.cfg.valid = true →
    (s.qCount ≠ 0 → s.qCount ≤ s.qRd ∨ Memory.read s.qMem s.qRd = none →
      exec .playbackStep s = .refused .deadEntry) ∧
    (∀ v, s.qRd < s.qCount → Memory.read s.qMem s.qRd = some v → 5 < v.toNat →
      exec .playbackStep s = .refused .badCommandCode) ∧
    (∀ b, s.qCount ≠ 1024 → 1024 ≤ s.qWr → exec (.serialRx b) s = .fault .noSuchEntry) ∧
    (∀ k, s.gates.length ≤ s.cfg.gateOf.of k → exec (.btnEdge k) s = .refused .noSuchGate) ∧
    (∀ g, s.gates.length ≤ g.toNat → exec (.gateTimeout g) s = .refused .noSuchGate) ∧
    (∀ b, inAlphabet b = true → exec (.cmdInvalid b) s = .refused .wrongByteClass)

/-- R80 (log 2): an operation leaves what the environment presents alone; a step takes exactly the head of it. -/
def Obligations.OnlyTheStepTakesAStimulus : Prop :=
  (∀ (i : Instr) (s t : State), exec i s = .next t → t.env = s.env) ∧
  (∀ s t : State, step s = .next t → t.env = s.env.tail)

/-- R200, R84, R230: only the serial operations transmit; each sends exactly one reply, `EOB` from a full queue. -/
def Obligations.OnlySerialOperationsTransmit : Prop :=
  ∀ (i : Instr) (s t : State), exec i s = .next t →
    t.tx = s.tx ++ match receivedByte i with
      | none => []
      | some b => if s.qCount = 1024 then [0x45, 0x4F, 0x42] else [echoOf b]

/-- R51, R33 (frame of every operation): an operation that gives a next state leaves every register (by its number of
R50) unchanged but those R51 lists as written by it. A fourth button whose action is unknown is left out (D12). -/
def Obligations.OperationsWriteOnlyTheirRegisters : Prop :=
  ∀ (i : Instr) (s t : State) (n : Nat), s.cfg.btn3 = .identity → exec i s = .next t → n ∉ writes s.cfg i →
    t.register n = s.register n

/-- R51, R63 (frame of the storage): only a received byte on a queue that is not full stores, and only at the write
cursor; every other byte of the storage reads as before. RESET is left out: R230 leaves the storage unspecified. -/
def Obligations.OnlyReceivedBytesAreStored : Prop :=
  ∀ (i : Instr) (s t : State) (a : Nat), s.cfg.btn3 = .identity → i ≠ .reset → exec i s = .next t →
    (receivedByte i = none ∨ s.qCount = 1024 ∨ a ≠ s.qWr) → Memory.read t.qMem a = Memory.read s.qMem a

/-- R52 to R59: every invariant of 10_state.md section 12 holds after every step of a run, in every configuration that
meets its constraints and whose fourth button is the identity (D12). -/
def Obligations.StepKeepsTheInvariants : Prop :=
  ∀ s t : State, Inv s → IsRun s → step s = .next t → Inv t ∧ IsRun t

/-- R230, R52 to R59: the state after RESET meets every invariant, in every configuration that meets its constraints.
No statement rests on the configuration of `State.reset` (log 1). -/
def Obligations.ResetMeetsTheInvariants : Prop :=
  ∀ c : Config, c.valid = true → c.btn3 = .identity → Inv (State.resetWith c) ∧ IsRun (State.resetWith c)

/-- R222: in every state that meets the invariants every event is enabled, for every operand, and gives a next
state. -/
def Obligations.EveryEventIsEnabled : Prop :=
  ∀ (s : State) (i : Instr), Inv s → i.isMicro = false → i.wf s.cfg.nGates = true → ∃ t, exec i s = .next t

/-- R204, U9: no operation faults and none gets stuck: in a state that meets the invariants a step can be refused only
for a stimulus that encodes no operation. -/
def Obligations.NothingIsFatal : Prop :=
  ∀ s : State, Inv s →
    (∃ t, step s = .next t) ∨
      ∃ x rest e, s.env = x :: rest ∧ decode s.cfg.nGates x = .error e ∧ step s = .refused (.undecodable e)

/-- R186, R188: a pass of the main loop, whatever its readings and enables, completes from every state that meets the
invariants and keeps them. -/
def Obligations.MainPassCompletes : Prop :=
  ∀ (s : State) (c0 c1 c2 c3 : Nat) (en0 en1 : Bool), Inv s →
    ∃ t, execAll (mainPass c0 c1 c2 c3 en0 en1) s = .next t ∧ Inv t

/-- R66, U5: two states that differ only outside the live entries of the storage are indistinguishable: a step gives
them the same outcome, again but for dead entries. -/
def Obligations.DeadEntriesCannotBeTold : Prop :=
  ∀ s t : State, QueueInv s → s.cfg.btn3 = .identity → SameButDead s t → SameOutcome (step s) (step t)
end

