-- ==== Sys2Proof/Laws/Float.lean ====
section
/-! SUPPORT. What one rounding does: the words as magnitudes, the rounding to nearest, and the bounds it keeps. -/

namespace Sys2Proof.F64

/-! ### Powers of two -/

theorem two_pow_add (a b : Nat) : 2 ^ a * 2 ^ b = 2 ^ (a + b) := (pow_add 2 a b).symm

theorem two_pow_le {a b : Nat} (h : a ≤ b) : 2 ^ a ≤ 2 ^ b := Nat.pow_le_pow_right (by norm_num) h

theorem two_pow_lt {a b : Nat} (h : a < b) : 2 ^ a < 2 ^ b := Nat.pow_lt_pow_right (by norm_num) h

theorem two_pow_pos (a : Nat) : 0 < 2 ^ a := by positivity

theorem one1074_eq : one1074 = 2 ^ 1074 := by unfold one1074; exact Eq.refl _

theorem one1074_pos : 0 < one1074 := by rw [one1074_eq]; exact two_pow_pos 1074

/-! ### Words and magnitudes -/

theorem mag_lt (x : F64) : x.mag < 2 ^ 63 := Nat.mod_lt _ (by norm_num)

theorem pack_toNat (neg : Bool) {m : Nat} (h : m < 2 ^ 63) :
    (pack neg m).bits.toNat = (if neg then 2 ^ 63 else 0) + m := by
  unfold pack
  rw [BitVec.toNat_ofNat, Nat.mod_eq_of_lt]
  split <;> omega

theorem pack_mag (neg : Bool) {m : Nat} (h : m < 2 ^ 63) : (pack neg m).mag = m := by
  unfold mag
  rw [pack_toNat neg h]
  split <;> omega

theorem pack_isNeg (neg : Bool) {m : Nat} (h : m < 2 ^ 63) : (pack neg m).isNeg = neg := by
  unfold isNeg
  rw [pack_toNat neg h]
  cases neg <;> simp
  omega

/-- A word is its sign and its magnitude bits. -/
theorem pack_isNeg_mag (x : F64) : pack x.isNeg x.mag = x := by
  have hb : x.bits.toNat < 2 ^ 64 := x.bits.isLt
  cases x with
  | mk b =>
    simp only [pack, mk.injEq]
    apply BitVec.eq_of_toNat_eq
    rw [BitVec.toNat_ofNat]
    simp only [isNeg, mag, decide_eq_true_eq]
    split <;> omega

theorem ext_of_mag {x y : F64} (hn : x.isNeg = y.isNeg) (hm : x.mag = y.mag) : x = y := by
  rw [← pack_isNeg_mag x, ← pack_isNeg_mag y, hn, hm]

theorem infMag_lt : infMag < 2 ^ 63 := by norm_num [infMag]

theorem isFinite_iff (x : F64) : x.isFinite = true ↔ x.mag < infMag := by simp [isFinite]

theorem isNaN_of_isFinite {x : F64} (h : x.isFinite = true) : x.isNaN = false := by
  simp only [isFinite, isNaN, decide_eq_true_eq, decide_eq_false_iff_not] at *
  omega

@[simp] theorem zero_isNeg : zero.isNeg = false := by decide
@[simp] theorem zero_mag : zero.mag = 0 := by decide
@[simp] theorem zero_isFinite : zero.isFinite = true := by decide +kernel
@[simp] theorem zero_scaledAbs : zero.scaledAbs = 0 := by decide +kernel
@[simp] theorem zero_scaled : zero.scaled = 0 := by decide +kernel

/-! ### The value of magnitude bits -/

/-- The exponent-and-fraction form of the value. -/
theorem magValue_split (e f : Nat) (hf : f < 2 ^ 52) :
    magValue (e * 2 ^ 52 + f) = if e = 0 then f else (2 ^ 52 + f) * 2 ^ (e - 1) := by
  have h1 : (e * 2 ^ 52 + f) / 2 ^ 52 = e := by omega
  have h2 : (e * 2 ^ 52 + f) % 2 ^ 52 = f := by omega
  simp only [magValue, h1, h2]

theorem magValue_small {m : Nat} (h : m < 2 ^ 53) : magValue m = m := by
  obtain hlt | hge := Nat.lt_or_ge m (2 ^ 52)
  · have := magValue_split 0 m hlt
    simpa using this
  · have := magValue_split 1 (m - 2 ^ 52) (by omega)
    rw [show 1 * 2 ^ 52 + (m - 2 ^ 52) = m by omega] at this
    rw [this]; simp; omega

/-- Place `k` and significand `r` make the value `r * 2^k`, a carried significand `2^53` included. -/
theorem magValue_place {k r : Nat} (hk : k = 0 ∨ 2 ^ 52 ≤ r) (hr : r ≤ 2 ^ 53) :
    magValue (k * 2 ^ 52 + r) = r * 2 ^ k := by
  obtain hlt | rfl := Nat.lt_or_eq_of_le hr
  · obtain rfl | hk := hk
    · simpa using magValue_small hlt
    · have := magValue_split (k + 1) (r - 2 ^ 52) (by omega)
      rw [show (k + 1) * 2 ^ 52 + (r - 2 ^ 52) = k * 2 ^ 52 + r by omega] at this
      rw [this, if_neg (by omega), show 2 ^ 52 + (r - 2 ^ 52) = r by omega]; simp
  · have := magValue_split (k + 2) 0 (by norm_num)
    rw [show (k + 2) * 2 ^ 52 + 0 = k * 2 ^ 52 + 2 ^ 53 by omega] at this
    rw [this, if_neg (by omega), show k + 2 - 1 = k + 1 by omega, pow_succ]
    ring

theorem magValue_lt_succ (m : Nat) : magValue m < magValue (m + 1) := by
  have hm : m = m / 2 ^ 52 * 2 ^ 52 + m % 2 ^ 52 := by omega
  have hf : m % 2 ^ 52 < 2 ^ 52 := Nat.mod_lt _ (by norm_num)
  generalize m / 2 ^ 52 = e at hm
  generalize m % 2 ^ 52 = f at hm hf
  subst hm
  obtain hlt | heq : f + 1 < 2 ^ 52 ∨ f + 1 = 2 ^ 52 := by omega
  · rw [Nat.add_assoc, magValue_split e f hf, magValue_split e (f + 1) hlt]
    split
    · omega
    · exact Nat.mul_lt_mul_of_pos_right (by omega) (by positivity)
  · have h1 : e * 2 ^ 52 + f + 1 = (e + 1) * 2 ^ 52 + 0 := by omega
    rw [h1, magValue_split e f hf, magValue_split (e + 1) 0 (by norm_num), if_neg (by omega : ¬e + 1 = 0)]
    split
    · subst e; simp; omega
    · obtain ⟨j, rfl⟩ : ∃ j, e = j + 1 := ⟨e - 1, by omega⟩
      simp only [Nat.add_sub_cancel, pow_succ]
      have : 0 < 2 ^ j := by positivity
      nlinarith

/-- Magnitude bits order as their values do. -/
theorem magValue_strictMono : StrictMono magValue := strictMono_nat_of_lt_succ magValue_lt_succ

theorem magValue_infMag : magValue infMag = 2 ^ 2098 := by decide +kernel

theorem lt_infMag_iff (m : Nat) : m < infMag ↔ magValue m < 2 ^ 2098 := by
  rw [← magValue_infMag, magValue_strictMono.lt_iff_lt]

/-- From `2^(52+k)` up, every value is a whole multiple of `2^k`. -/
theorem magValue_dvd {m k : Nat} (h : 2 ^ (52 + k) ≤ magValue m) : 2 ^ k ∣ magValue m := by
  have hm : m = m / 2 ^ 52 * 2 ^ 52 + m % 2 ^ 52 := by omega
  have hf : m % 2 ^ 52 < 2 ^ 52 := Nat.mod_lt _ (by norm_num)
  generalize m / 2 ^ 52 = e at hm
  generalize m % 2 ^ 52 = f at hm hf
  subst hm
  rw [magValue_split e f hf] at h ⊢
  split at h
  · have : 2 ^ 52 ≤ 2 ^ (52 + k) := Nat.pow_le_pow_right (by norm_num) (by omega)
    omega
  · rename_i he
    rw [if_neg he]
    have hk : k ≤ e - 1 := by
      by_contra hc
      have h2 : 2 ^ (52 + k) ≥ 2 ^ (52 + (e - 1 + 1)) := Nat.pow_le_pow_right (by norm_num) (by omega)
      have h3 : (2 ^ 52 + f) * 2 ^ (e - 1) < 2 ^ 53 * 2 ^ (e - 1) :=
        Nat.mul_lt_mul_of_pos_right (by omega) (by positivity)
      have h4 : 2 ^ (52 + (e - 1 + 1)) = 2 ^ 53 * 2 ^ (e - 1) := by rw [← pow_add]; congr 1; omega
      omega
    exact Dvd.dvd.mul_left (pow_dvd_pow 2 hk) _

/-- A power of two is the value of some magnitude bits. -/
theorem exists_magValue_two_pow (j : Nat) : ∃ m, magValue m = 2 ^ j := by
  obtain h | h := Nat.lt_or_ge j 53
  · exact ⟨2 ^ j, magValue_small (Nat.pow_lt_pow_right (by norm_num) h)⟩
  · refine ⟨(j - 51) * 2 ^ 52, ?_⟩
    have := magValue_split (j - 51) 0 (by norm_num)
    rw [Nat.add_zero] at this
    rw [this, if_neg (by omega), Nat.add_zero, ← pow_add]; congr 1; omega

/-! ### Rounding to nearest -/

/-- Twice the distance of the rounded quotient is at most the divisor. -/
theorem divNearestEven_dist (n : Nat) {d : Nat} (hd : 0 < d) :
    2 * |(divNearestEven n d : Int) * d - n| ≤ d := by
  have h := Nat.div_add_mod n d
  have hr := Nat.mod_lt n hd
  unfold divNearestEven
  generalize n % d = r at *
  generalize n / d = q at *
  have hq : (q : Int) * d = n - r := by
    have : ((d * q + r : Nat) : Int) = n := by rw [h]
    push_cast at this ⊢; linarith
  split
  · rw [hq, show (n : Int) - r - n = -(r : Int) by ring, abs_neg, abs_of_nonneg (by positivity)]
    omega
  · rw [Nat.cast_add, add_mul, hq, Nat.cast_one, one_mul, show (n : Int) - r + d - n = d - (r : Int) by ring,
      abs_of_nonneg (by omega)]
    omega

/-- On a tie the rounded quotient is even. -/
theorem divNearestEven_tie {n d : Nat} (h : 2 * (n % d) = d) : divNearestEven n d % 2 = 0 := by
  unfold divNearestEven
  split <;> omega

/-- No natural is nearer. -/
theorem divNearestEven_nearest (n : Nat) {d : Nat} (hd : 0 < d) (z : Nat) :
    |(divNearestEven n d : Int) * d - n| ≤ |(z : Int) * d - n| := by
  have h := divNearestEven_dist n hd
  by_cases hz : (z : Int) = divNearestEven n d
  · rw [hz]
  · have h1 : (d : Int) ≤ |(z : Int) * d - divNearestEven n d * d| := by
      rw [← sub_mul, abs_mul, abs_of_nonneg (by positivity : (0 : Int) ≤ d)]
      have : 1 ≤ |(z : Int) - divNearestEven n d| := Int.one_le_abs (sub_ne_zero.mpr hz)
      nlinarith
    have h2 : |(z : Int) * d - divNearestEven n d * d| ≤
        |(z : Int) * d - n| + |(divNearestEven n d : Int) * d - n| := by
      have := abs_sub_le ((z : Int) * d) n (divNearestEven n d * d)
      rwa [abs_sub_comm (n : Int)] at this
    linarith

theorem div_lt_of_lastPlace (q : Nat) : q < 2 ^ (53 + lastPlace q) := by
  have := Nat.lt_log2_self (n := q)
  refine lt_of_lt_of_le this (Nat.pow_le_pow_right (by norm_num) ?_)
  unfold lastPlace; omega

theorem le_of_lastPlace_pos {q : Nat} (h : lastPlace q ≠ 0) : 2 ^ (52 + lastPlace q) ≤ q := by
  have hq : q ≠ 0 := by rintro rfl; simp [lastPlace] at h
  refine le_trans (Nat.pow_le_pow_right (by norm_num) ?_) (Nat.log2_self_le hq)
  unfold lastPlace at *; omega

/-- The significand of a rounding has 53 bits, or has just carried. -/
theorem significand_bounds (n : Nat) (d : Nat) :
    (lastPlace (n / d) = 0 ∨ 2 ^ 52 ≤ divNearestEven n (d * 2 ^ lastPlace (n / d))) ∧
      divNearestEven n (d * 2 ^ lastPlace (n / d)) ≤ 2 ^ 53 := by
  set k := lastPlace (n / d) with hk
  have hpos : 0 < 2 ^ k := by positivity
  have hq : n / (d * 2 ^ k) = n / d / 2 ^ k := (Nat.div_div_eq_div_mul n d (2 ^ k)).symm
  have hup : n / (d * 2 ^ k) < 2 ^ 53 := by
    rw [hq, Nat.div_lt_iff_lt_mul hpos, ← pow_add]
    exact div_lt_of_lastPlace _
  constructor
  · by_cases h0 : k = 0
    · exact .inl h0
    · right
      have hlo : 2 ^ 52 ≤ n / (d * 2 ^ k) := by
        rw [hq, Nat.le_div_iff_mul_le hpos, ← pow_add]
        exact le_of_lastPlace_pos h0
      unfold divNearestEven
      split <;> omega
  · unfold divNearestEven
    split <;> omega

/-- The rounded magnitude as a value. -/
theorem magValue_roundMag (n d : Nat) :
    magValue (roundMag n d) = divNearestEven n (d * 2 ^ lastPlace (n / d)) * 2 ^ lastPlace (n / d) :=
  magValue_place (significand_bounds n d).1 (significand_bounds n d).2

/-- CORRECT ROUNDING: no magnitude is nearer to `n / d` than the rounded one. -/
theorem roundMag_nearest (n : Nat) {d : Nat} (hd : 0 < d) (m : Nat) :
    |(magValue (roundMag n d) : Int) * d - n| ≤ |(magValue m : Int) * d - n| := by
  rw [magValue_roundMag n d]
  have hmul : ∀ z : Nat, |((divNearestEven n (d * 2 ^ lastPlace (n / d)) * 2 ^ lastPlace (n / d) : Nat) : Int) * d - n| ≤
      |((z * 2 ^ lastPlace (n / d) : Nat) : Int) * d - n| := by
    intro z
    have := divNearestEven_nearest n (d := d * 2 ^ lastPlace (n / d)) (by positivity) z
    push_cast at this ⊢
    rwa [mul_comm (d : Int), ← mul_assoc, ← mul_assoc] at this
  by_cases h0 : lastPlace (n / d) = 0
  · have := hmul (magValue m)
    rw [h0] at this ⊢
    simpa using this
  · by_cases hv : 2 ^ (52 + lastPlace (n / d)) ≤ magValue m
    · obtain ⟨z, hz⟩ := magValue_dvd hv
      have := hmul z
      rwa [mul_comm z, ← hz] at this
    · have hb := hmul (2 ^ 52)
      rw [← pow_add] at hb
      refine hb.trans ?_
      have hle : 2 ^ (52 + lastPlace (n / d)) * d ≤ n :=
        (Nat.le_div_iff_mul_le hd).mp (le_of_lastPlace_pos h0)
      have hlt : magValue m * d ≤ 2 ^ (52 + lastPlace (n / d)) * d := Nat.mul_le_mul_right _ (by omega)
      have h1 : ((2 ^ (52 + lastPlace (n / d)) : Nat) : Int) * d ≤ n := by exact_mod_cast hle
      have h2 : (magValue m : Int) * d ≤ ((2 ^ (52 + lastPlace (n / d)) : Nat) : Int) * d := by exact_mod_cast hlt
      rw [abs_of_nonpos (by linarith), abs_of_nonpos (by linarith)]
      linarith

/-- A value that is exactly representable is the result. -/
theorem roundMag_exact {n d m : Nat} (hd : 0 < d) (h : magValue m * d = n) : roundMag n d = m := by
  have := roundMag_nearest n hd m
  rw [← h] at this
  simp only [Nat.cast_mul, sub_self, abs_zero, abs_nonpos_iff] at this
  have h2 : ((magValue (roundMag (magValue m * d) d) : Nat) : Int) = magValue m := by
    have hd' : (d : Int) ≠ 0 := by exact_mod_cast hd.ne'
    exact mul_right_cancel₀ hd' (by linarith)
  rw [← h]
  exact magValue_strictMono.injective (by exact_mod_cast h2)

/-- Rounding does not pass a magnitude that the exact value does not pass. -/
theorem roundMag_le {n d m : Nat} (hd : 0 < d) (h : n ≤ magValue m * d) : roundMag n d ≤ m := by
  by_contra hc
  have hlt : magValue m < magValue (roundMag n d) := magValue_strictMono (by omega)
  have := roundMag_nearest n hd m
  have h1 : (n : Int) ≤ magValue m * d := by exact_mod_cast h
  have h2 : ((magValue m : Nat) : Int) + 1 ≤ magValue (roundMag n d) := by exact_mod_cast hlt
  have hd' : (0 : Int) < d := by exact_mod_cast hd
  have h3 : ((magValue m : Nat) : Int) * d < (magValue (roundMag n d) : Int) * d := by nlinarith
  rw [abs_of_nonneg (by linarith), abs_of_nonneg (by linarith)] at this
  linarith

/-- Below a power of two that a finite word has, the rounding is finite and below it. -/
theorem roundMag_le_two_pow {n d j : Nat} (hd : 0 < d) (hj : j < 2098) (h : n ≤ 2 ^ j * d) :
    magValue (roundMag n d) ≤ 2 ^ j ∧ roundMag n d < infMag := by
  obtain ⟨m, hm⟩ := exists_magValue_two_pow j
  have hle := roundMag_le (m := m) hd (hm.symm ▸ h)
  have hv : magValue (roundMag n d) ≤ 2 ^ j := hm ▸ magValue_strictMono.monotone hle
  exact ⟨hv, (lt_infMag_iff _).mpr (lt_of_le_of_lt hv (two_pow_lt hj))⟩

/-! ### The rounded word -/

theorem pack_scaledAbs (neg : Bool) {m : Nat} (h : m < 2 ^ 63) : (pack neg m).scaledAbs = magValue m := by
  rw [scaledAbs, pack_mag neg h]

theorem pack_isFinite (neg : Bool) {m : Nat} (h : m < infMag) : (pack neg m).isFinite = true := by
  rw [isFinite_iff, pack_mag neg (h.trans infMag_lt)]; exact h

/-- What a rounding that stays in range gives. -/
theorem roundTo_of_lt {op : Config.FloatOp} {x y : F64} {neg : Bool} {n d : Nat} (h : roundMag n d < infMag) :
    roundTo op x y neg n d = pack neg (roundMag n d) := by simp [roundTo, h]

/-- ONE ROUNDING BOUNDED: the exact magnitude is at most `2^j` units, so the result is finite, at most `2^j`, and of
the given sign. -/
theorem roundTo_bound {op : Config.FloatOp} {x y : F64} {neg : Bool} {n d j : Nat} (hd : 0 < d) (hj : j < 2098)
    (h : n ≤ 2 ^ j * d) :
    (roundTo op x y neg n d).isFinite = true ∧ (roundTo op x y neg n d).scaledAbs ≤ 2 ^ j ∧
      (roundTo op x y neg n d).isNeg = neg := by
  obtain ⟨hv, hlt⟩ := roundMag_le_two_pow hd hj h
  rw [roundTo_of_lt hlt]
  exact ⟨pack_isFinite neg hlt, by rw [pack_scaledAbs neg (hlt.trans infMag_lt)]; exact hv,
    pack_isNeg neg (hlt.trans infMag_lt)⟩

theorem scaled_natAbs (x : F64) : x.scaled.natAbs = x.scaledAbs := by
  unfold scaled; split <;> simp

theorem isFinite_of_scaledAbs {x : F64} (h : x.scaledAbs < 2 ^ 2098) : x.isFinite = true := by
  rw [isFinite_iff, lt_infMag_iff]; exact h

theorem scaledAbs_lt_of_isFinite {x : F64} (h : x.isFinite = true) : x.scaledAbs < 2 ^ 2098 :=
  (lt_infMag_iff _).mp ((isFinite_iff x).mp h)

/-- A word has a bound: finite, and at most `2^j` units in magnitude. -/
abbrev Below (x : F64) (j : Nat) : Prop := x.isFinite = true ∧ x.scaledAbs ≤ 2 ^ j

theorem Below.mono {x : F64} {j k : Nat} (h : Below x j) (hjk : j ≤ k) : Below x k :=
  ⟨h.1, h.2.trans (Nat.pow_le_pow_right (by norm_num) hjk)⟩

@[simp] theorem fneg_mag (x : F64) : (fneg x).mag = x.mag := pack_mag _ (mag_lt x)

@[simp] theorem fneg_isNeg (x : F64) : (fneg x).isNeg = !x.isNeg := pack_isNeg _ (mag_lt x)

@[simp] theorem fneg_scaledAbs (x : F64) : (fneg x).scaledAbs = x.scaledAbs := by simp [scaledAbs]

@[simp] theorem fneg_isFinite (x : F64) : (fneg x).isFinite = x.isFinite := by simp [isFinite]

@[simp] theorem fneg_scaled (x : F64) : (fneg x).scaled = -x.scaled := by
  simp only [scaled, fneg_isNeg, fneg_scaledAbs]
  cases x.isNeg <;> simp

/-- The sum of two bounded words is bounded. -/
theorem sum_below {op : Config.FloatOp} {u v x y : F64} {j : Nat} (hx : x.scaledAbs ≤ 2 ^ j) (hy : y.scaledAbs ≤ 2 ^ j)
    (hj : j + 1 < 2098) : Below (sum op u v x y) (j + 1) := by
  have h : (x.scaled + y.scaled).natAbs ≤ 2 ^ (j + 1) * 1 := by
    have := Int.natAbs_add_le x.scaled y.scaled
    rw [scaled_natAbs, scaled_natAbs] at this
    rw [pow_succ]; omega
  have := roundTo_bound (op := op) (x := u) (y := v) (neg := sumNeg x y) one_pos hj h
  exact ⟨this.1, this.2.1⟩

theorem fadd_below {x y : F64} {j : Nat} (hx : Below x j) (hy : Below y j) (hj : j + 1 < 2098) :
    Below (fadd x y) (j + 1) := by
  simp only [fadd, hx.1, hy.1, Bool.and_self, if_true]
  exact sum_below hx.2 hy.2 hj

theorem fsub_below {x y : F64} {j : Nat} (hx : Below x j) (hy : Below y j) (hj : j + 1 < 2098) :
    Below (fsub x y) (j + 1) := by
  simp only [fsub, hx.1, hy.1, Bool.and_self, if_true]
  exact sum_below hx.2 (by simpa using hy.2) hj

/-- A product of a word below `2^j` and one below `2^k`. -/
theorem fmul_below {x y : F64} {j k l : Nat} (hx : Below x j) (hy : Below y k) (hl : j + k ≤ l + 1074) (hj : l < 2098) :
    Below (fmul x y) l := by
  simp only [fmul, hx.1, hy.1, Bool.and_self, if_true]
  have h : x.scaledAbs * y.scaledAbs ≤ 2 ^ l * one1074 := by
    refine (Nat.mul_le_mul hx.2 hy.2).trans ?_
    rw [one1074_eq, two_pow_add, two_pow_add]
    exact two_pow_le hl
  have := roundTo_bound (op := .mul) (x := x) (y := y) (neg := x.isNeg != y.isNeg) one1074_pos hj h
  exact ⟨this.1, this.2.1⟩

/-- A quotient of a word below `2^j` by one of at least `2^k`. -/
theorem fdiv_below {x y : F64} {j k l : Nat} (hx : Below x j) (hy : y.isFinite = true) (hk : 2 ^ k ≤ y.scaledAbs)
    (hl : j + 1074 ≤ l + k) (hj : l < 2098) : Below (fdiv x y) l := by
  have hpos : 0 < y.scaledAbs := lt_of_lt_of_le (by positivity) hk
  simp only [fdiv, hx.1, hy, Bool.and_self, Bool.true_and, decide_eq_true_eq, ne_eq, hpos.ne', not_false_eq_true, if_true]
  have h : x.scaledAbs * one1074 ≤ 2 ^ l * y.scaledAbs := by
    refine (Nat.mul_le_mul_right _ hx.2).trans (le_trans ?_ (Nat.mul_le_mul_left _ hk))
    rw [one1074_eq, two_pow_add, two_pow_add]
    exact two_pow_le hl
  have := roundTo_bound (op := .div) (x := x) (y := y) (neg := x.isNeg != y.isNeg) hpos hj h
  exact ⟨this.1, this.2.1⟩

/-! ### Integers -/

/-- An integer below `2^53` is exactly a word. -/
theorem exists_magValue_int {a : Nat} (ha : a < 2 ^ 53) : ∃ m, magValue m = a * one1074 := by
  by_cases h0 : a = 0
  · exact ⟨0, by subst h0; rw [Nat.zero_mul]; decide⟩
  · -- shift the integer up to 53 significant bits
    have hl : a.log2 < 53 := (Nat.log2_lt h0).mpr ha
    have hlo : 2 ^ a.log2 ≤ a := Nat.log2_self_le h0
    have hhi : a < 2 ^ (a.log2 + 1) := Nat.lt_log2_self
    refine ⟨(1074 - (52 - a.log2)) * 2 ^ 52 + a * 2 ^ (52 - a.log2), ?_⟩
    have h1 : 2 ^ 52 ≤ a * 2 ^ (52 - a.log2) := by
      calc 2 ^ 52 = 2 ^ a.log2 * 2 ^ (52 - a.log2) := by rw [← pow_add]; congr 1; omega
        _ ≤ _ := Nat.mul_le_mul_right _ hlo
    have h2 : a * 2 ^ (52 - a.log2) ≤ 2 ^ 53 := by
      calc a * 2 ^ (52 - a.log2) ≤ 2 ^ (a.log2 + 1) * 2 ^ (52 - a.log2) := Nat.mul_le_mul_right _ hhi.le
        _ = 2 ^ 53 := by rw [← pow_add]; congr 1; omega
    rw [magValue_place (.inr h1) h2, mul_assoc, two_pow_add, one1074_eq,
      show 52 - a.log2 + (1074 - (52 - a.log2)) = 1074 by omega]

/-- `of_int` is exact below `2^53` (R12). -/
theorem ofInt_exact {n : Int} (h : n.natAbs < 2 ^ 53) :
    (ofInt n).isFinite = true ∧ (ofInt n).isNeg = decide (n < 0) ∧ (ofInt n).scaledAbs = n.natAbs * one1074 := by
  obtain ⟨m, hm⟩ := exists_magValue_int h
  have hr : roundMag (n.natAbs * one1074) 1 = m := roundMag_exact one_pos (by rw [hm, mul_one])
  have hlt : m < infMag := by
    rw [lt_infMag_iff, hm]
    calc n.natAbs * one1074 < 2 ^ 53 * one1074 := Nat.mul_lt_mul_of_pos_right h one1074_pos
      _ ≤ 2 ^ 2098 := by rw [one1074_eq, two_pow_add]; exact two_pow_le (by norm_num)
  rw [ofInt, hr]
  exact ⟨pack_isFinite _ hlt, pack_isNeg _ (hlt.trans infMag_lt), by rw [pack_scaledAbs _ (hlt.trans infMag_lt), hm]⟩

theorem ofInt_scaled {n : Int} (h : n.natAbs < 2 ^ 53) : (ofInt n).scaled = n * one1074 := by
  obtain ⟨-, hs, ha⟩ := ofInt_exact h
  rw [scaled, hs, ha]
  by_cases hn : n < 0
  · have : ((n.natAbs : Nat) : Int) = -n := by omega
    rw [if_pos (by simpa using hn), Nat.cast_mul, this]; ring
  · have : ((n.natAbs : Nat) : Int) = n := by omega
    rw [if_neg (by simpa using hn), Nat.cast_mul, this]

@[simp] theorem ofInt_zero : ofInt 0 = zero := by decide +kernel

/-- Two finite words of one value and one sign are one word. -/
theorem eq_of_value {x y : F64} (hn : x.isNeg = y.isNeg) (hv : x.scaledAbs = y.scaledAbs) : x = y :=
  ext_of_mag hn (magValue_strictMono.injective hv)

/-- A sum of integers is exact: the word of an integer again. -/
theorem sum_ofInt {op : Config.FloatOp} {u v x y : F64} {n : Int} (h : n.natAbs < 2 ^ 53)
    (hs : x.scaled + y.scaled = n * one1074) (hneg : n = 0 → (x.isNeg && y.isNeg) = false) :
    sum op u v x y = ofInt n := by
  obtain ⟨hf, hsn, ha⟩ := ofInt_exact h
  have hv : (x.scaled + y.scaled).natAbs = (ofInt n).scaledAbs * 1 := by
    rw [hs, ha, Int.natAbs_mul, mul_one]; rfl
  have hr : roundMag (x.scaled + y.scaled).natAbs 1 = (ofInt n).mag := roundMag_exact one_pos hv.symm
  have hlt : roundMag (x.scaled + y.scaled).natAbs 1 < infMag := by rw [hr]; exact (isFinite_iff _).mp hf
  rw [sum, roundTo_of_lt hlt, hr]
  have hsign : sumNeg x y = (ofInt n).isNeg := by
    rw [sumNeg, hs, hsn]
    have hp : (0 : Int) < one1074 := by exact_mod_cast one1074_pos
    by_cases h0 : n = 0
    · subst h0; simpa using hneg rfl
    · rw [if_neg (mul_ne_zero h0 hp.ne')]
      exact decide_eq_decide.mpr ⟨fun hm => by nlinarith, fun hm => by nlinarith⟩
  rw [hsign, pack_isNeg_mag]

end Sys2Proof.F64
end

