-- ==== Sys2Proof/Laws/Memory.lean ====
section
/-! SUPPORT. The command storage: read after write, and the canonical form. -/

namespace Sys2Proof.Machine.Memory

theorem read_none_of_risingFrom : ∀ (m : Memory) (lo i : Nat), risingFrom lo m = true → i < lo → read m i = none
  | [], _, _, _, _ => rfl
  | (a, v) :: rest, lo, i, h, hi => by
    simp only [risingFrom, Bool.and_eq_true, decide_eq_true_eq] at h
    rw [read, if_neg (by omega)]
    exact read_none_of_risingFrom rest (a + 1) i h.2 (by omega)

theorem read_write_same : ∀ (m : Memory) (i : Nat) (v : Byte), read (write m i v) i = some v
  | [], i, v => by simp [write, read]
  | (a, u) :: rest, i, v => by
    unfold write
    split
    · simp [read]
    · split
      · rename_i h; simp [read, h]
      · rename_i h; rw [read, if_neg h]; exact read_write_same rest i v

theorem read_write_other : ∀ (m : Memory) (i j : Nat) (v : Byte), j ≠ i → read (write m i v) j = read m j
  | [], i, j, v, h => by simp [write, read, h]
  | (a, u) :: rest, i, j, v, h => by
    unfold write
    split
    · rw [read, if_neg h]
    · split
      · rename_i ha; simp only [read]; rw [← ha, if_neg h, if_neg h]
      · simp only [read, read_write_other rest i j v h]

theorem risingFrom_write : ∀ (m : Memory) (lo i : Nat) (v : Byte), risingFrom lo m = true → lo ≤ i →
    risingFrom lo (write m i v) = true
  | [], lo, i, v, _, hi => by simp [write, risingFrom, hi]
  | (a, u) :: rest, lo, i, v, h, hi => by
    simp only [risingFrom, Bool.and_eq_true, decide_eq_true_eq] at h
    unfold write
    split
    · simp only [risingFrom, Bool.and_eq_true, decide_eq_true_eq]
      exact ⟨hi, by omega, h.2⟩
    · split
      · simp only [risingFrom, Bool.and_eq_true, decide_eq_true_eq]; exact h
      · simp only [risingFrom, Bool.and_eq_true, decide_eq_true_eq]
        exact ⟨h.1, risingFrom_write rest (a + 1) i v h.2 (by omega)⟩

theorem all_write (p : Host.Cell → Bool) : ∀ (m : Memory) (i : Nat) (v : Byte), m.all p = true →
    (∀ u : Byte, p (i, u) = true) → (write m i v).all p = true
  | [], i, v, _, hp => by simp [write, hp]
  | (a, u) :: rest, i, v, h, hp => by
    simp only [List.all_cons, Bool.and_eq_true] at h
    unfold write
    split
    · simp [hp, h.1, h.2]
    · split
      · rename_i ha; subst ha; simp [hp, h.2]
      · simp [h.1, all_write p rest i v h.2 hp]

/-- Writing an entry that exists keeps the canonical form. -/
theorem wf_write {m : Memory} {i : Nat} (v : Byte) (h : wf m = true) (hi : i < queueCap) : wf (write m i v) = true := by
  simp only [wf, Bool.and_eq_true] at h ⊢
  exact ⟨risingFrom_write m 0 i v h.1 (Nat.zero_le _), all_write _ m i v h.2 (by simpa using hi)⟩

theorem wf_nil : wf [] = true := rfl

/-- Canonical memories that read alike are one list. -/
theorem eq_of_read_eq : ∀ (m n : Memory) (lo : Nat), risingFrom lo m = true → risingFrom lo n = true →
    (∀ i, read m i = read n i) → m = n
  | [], [], _, _, _, _ => rfl
  | [], (a, v) :: _, _, _, _, h => by have := h a; simp [read] at this
  | (a, v) :: _, [], _, _, _, h => by have := h a; simp [read] at this
  | (a, v) :: m, (b, w) :: n, lo, hm, hn, h => by
    simp only [risingFrom, Bool.and_eq_true, decide_eq_true_eq] at hm hn
    have hab : a = b := by
      rcases Nat.lt_trichotomy a b with hlt | heq | hgt
      · have := h a
        rw [read, if_pos rfl, read, if_neg (by omega), read_none_of_risingFrom n (b + 1) a hn.2 (by omega)] at this
        exact absurd this (by simp)
      · exact heq
      · have := h b
        rw [read, if_neg (by omega), read_none_of_risingFrom m (a + 1) b hm.2 (by omega), read, if_pos rfl] at this
        exact absurd this (by simp)
    subst hab
    have hv : v = w := by have := h a; simpa [read] using this
    subst hv
    congr 1
    refine eq_of_read_eq m n (a + 1) hm.2 hn.2 fun i => ?_
    by_cases hi : i = a
    · subst hi
      rw [read_none_of_risingFrom m _ _ hm.2 (by omega), read_none_of_risingFrom n _ _ hn.2 (by omega)]
    · have := h i
      rwa [read, if_neg hi, read, if_neg hi] at this

end Sys2Proof.Machine.Memory
end

