-- ==== Sys2Proof/Laws/State.lean ====
section
/-! SUPPORT. The state record: one lemma per field per update, so that no proof unfolds an update. -/

namespace Sys2Proof.Machine

variable (s : State) (r : AxisRegs) (p : Pins)

/-! ### Axis and pin access -/

@[simp] theorem State.ax_setAx_same (a : AxisId) : (s.setAx a r).ax a = r := by cases a <;> rfl

theorem State.ax_setAx_other (a b : AxisId) (h : b ≠ a) : (s.setAx a r).ax b = s.ax b := by
  cases a <;> cases b <;> first | rfl | exact absurd rfl h

@[simp] theorem State.setAx_cfg (a : AxisId) : (s.setAx a r).cfg = s.cfg := by cases a <;> rfl
@[simp] theorem State.setAx_pin0 (a : AxisId) : (s.setAx a r).pin0 = s.pin0 := by cases a <;> rfl
@[simp] theorem State.setAx_pin1 (a : AxisId) : (s.setAx a r).pin1 = s.pin1 := by cases a <;> rfl
@[simp] theorem State.setAx_mode (a : AxisId) : (s.setAx a r).mode = s.mode := by cases a <;> rfl
@[simp] theorem State.setAx_sel (a : AxisId) : (s.setAx a r).sel = s.sel := by cases a <;> rfl
@[simp] theorem State.setAx_gates (a : AxisId) : (s.setAx a r).gates = s.gates := by cases a <;> rfl
@[simp] theorem State.setAx_qMem (a : AxisId) : (s.setAx a r).qMem = s.qMem := by cases a <;> rfl
@[simp] theorem State.setAx_qWr (a : AxisId) : (s.setAx a r).qWr = s.qWr := by cases a <;> rfl
@[simp] theorem State.setAx_qRd (a : AxisId) : (s.setAx a r).qRd = s.qRd := by cases a <;> rfl
@[simp] theorem State.setAx_qCount (a : AxisId) : (s.setAx a r).qCount = s.qCount := by cases a <;> rfl
@[simp] theorem State.setAx_qPbCnt (a : AxisId) : (s.setAx a r).qPbCnt = s.qPbCnt := by cases a <;> rfl
@[simp] theorem State.setAx_syn (a : AxisId) : (s.setAx a r).syn = s.syn := by cases a <;> rfl
@[simp] theorem State.setAx_aout (a : AxisId) : (s.setAx a r).aout = s.aout := by cases a <;> rfl
@[simp] theorem State.setAx_aoCnt (a : AxisId) : (s.setAx a r).aoCnt = s.aoCnt := by cases a <;> rfl
@[simp] theorem State.setAx_aoDue (a : AxisId) : (s.setAx a r).aoDue = s.aoDue := by cases a <;> rfl
@[simp] theorem State.setAx_tx (a : AxisId) : (s.setAx a r).tx = s.tx := by cases a <;> rfl
@[simp] theorem State.setAx_env (a : AxisId) : (s.setAx a r).env = s.env := by cases a <;> rfl

@[simp] theorem State.setAx_axis0 : s.setAx .axis0 r = { s with ax0 := r } := rfl
@[simp] theorem State.setAx_axis1 : s.setAx .axis1 r = { s with ax1 := r } := rfl

@[simp] theorem State.ax_axis0 : s.ax .axis0 = s.ax0 := rfl
@[simp] theorem State.ax_axis1 : s.ax .axis1 = s.ax1 := rfl

@[simp] theorem State.pin_setPin_same (a : AxisId) : (s.setPin a p).pin a = p := by cases a <;> rfl

theorem State.pin_setPin_other (a b : AxisId) (h : b ≠ a) : (s.setPin a p).pin b = s.pin b := by
  cases a <;> cases b <;> first | rfl | exact absurd rfl h

@[simp] theorem State.setPin_cfg (a : AxisId) : (s.setPin a p).cfg = s.cfg := by cases a <;> rfl
@[simp] theorem State.setPin_ax0 (a : AxisId) : (s.setPin a p).ax0 = s.ax0 := by cases a <;> rfl
@[simp] theorem State.setPin_ax1 (a : AxisId) : (s.setPin a p).ax1 = s.ax1 := by cases a <;> rfl
@[simp] theorem State.setPin_mode (a : AxisId) : (s.setPin a p).mode = s.mode := by cases a <;> rfl
@[simp] theorem State.setPin_sel (a : AxisId) : (s.setPin a p).sel = s.sel := by cases a <;> rfl
@[simp] theorem State.setPin_gates (a : AxisId) : (s.setPin a p).gates = s.gates := by cases a <;> rfl
@[simp] theorem State.setPin_qMem (a : AxisId) : (s.setPin a p).qMem = s.qMem := by cases a <;> rfl
@[simp] theorem State.setPin_qWr (a : AxisId) : (s.setPin a p).qWr = s.qWr := by cases a <;> rfl
@[simp] theorem State.setPin_qRd (a : AxisId) : (s.setPin a p).qRd = s.qRd := by cases a <;> rfl
@[simp] theorem State.setPin_qCount (a : AxisId) : (s.setPin a p).qCount = s.qCount := by cases a <;> rfl
@[simp] theorem State.setPin_qPbCnt (a : AxisId) : (s.setPin a p).qPbCnt = s.qPbCnt := by cases a <;> rfl
@[simp] theorem State.setPin_syn (a : AxisId) : (s.setPin a p).syn = s.syn := by cases a <;> rfl
@[simp] theorem State.setPin_aout (a : AxisId) : (s.setPin a p).aout = s.aout := by cases a <;> rfl
@[simp] theorem State.setPin_aoCnt (a : AxisId) : (s.setPin a p).aoCnt = s.aoCnt := by cases a <;> rfl
@[simp] theorem State.setPin_aoDue (a : AxisId) : (s.setPin a p).aoDue = s.aoDue := by cases a <;> rfl
@[simp] theorem State.setPin_tx (a : AxisId) : (s.setPin a p).tx = s.tx := by cases a <;> rfl
@[simp] theorem State.setPin_env (a : AxisId) : (s.setPin a p).env = s.env := by cases a <;> rfl

@[simp] theorem State.setPin_axis0 : s.setPin .axis0 p = { s with pin0 := p } := rfl
@[simp] theorem State.setPin_axis1 : s.setPin .axis1 p = { s with pin1 := p } := rfl

@[simp] theorem State.pin_axis0 : s.pin .axis0 = s.pin0 := rfl
@[simp] theorem State.pin_axis1 : s.pin .axis1 = s.pin1 := rfl

@[simp] theorem State.ax_setPin (a b : AxisId) : (s.setPin a p).ax b = s.ax b := by cases a <;> cases b <;> rfl
@[simp] theorem State.pin_setAx (a b : AxisId) : (s.setAx a r).pin b = s.pin b := by cases a <;> cases b <;> rfl

/-! ### The transmit stream -/

variable (bs : List Byte)

@[simp] theorem transmit_cfg : (transmit bs s).cfg = s.cfg := rfl
@[simp] theorem transmit_ax0 : (transmit bs s).ax0 = s.ax0 := rfl
@[simp] theorem transmit_ax1 : (transmit bs s).ax1 = s.ax1 := rfl
@[simp] theorem transmit_pin0 : (transmit bs s).pin0 = s.pin0 := rfl
@[simp] theorem transmit_pin1 : (transmit bs s).pin1 = s.pin1 := rfl
@[simp] theorem transmit_mode : (transmit bs s).mode = s.mode := rfl
@[simp] theorem transmit_sel : (transmit bs s).sel = s.sel := rfl
@[simp] theorem transmit_gates : (transmit bs s).gates = s.gates := rfl
@[simp] theorem transmit_qMem : (transmit bs s).qMem = s.qMem := rfl
@[simp] theorem transmit_qWr : (transmit bs s).qWr = s.qWr := rfl
@[simp] theorem transmit_qRd : (transmit bs s).qRd = s.qRd := rfl
@[simp] theorem transmit_qCount : (transmit bs s).qCount = s.qCount := rfl
@[simp] theorem transmit_qPbCnt : (transmit bs s).qPbCnt = s.qPbCnt := rfl
@[simp] theorem transmit_syn : (transmit bs s).syn = s.syn := rfl
@[simp] theorem transmit_aout : (transmit bs s).aout = s.aout := rfl
@[simp] theorem transmit_aoCnt : (transmit bs s).aoCnt = s.aoCnt := rfl
@[simp] theorem transmit_aoDue : (transmit bs s).aoDue = s.aoDue := rfl
@[simp] theorem transmit_tx : (transmit bs s).tx = s.tx ++ bs := rfl
@[simp] theorem transmit_env : (transmit bs s).env = s.env := rfl

/-! ### Presenting -/

variable (x : Stimulus)

@[simp] theorem present_cfg : (present x s).cfg = s.cfg := rfl
@[simp] theorem present_ax0 : (present x s).ax0 = s.ax0 := rfl
@[simp] theorem present_ax1 : (present x s).ax1 = s.ax1 := rfl
@[simp] theorem present_pin0 : (present x s).pin0 = s.pin0 := rfl
@[simp] theorem present_pin1 : (present x s).pin1 = s.pin1 := rfl
@[simp] theorem present_mode : (present x s).mode = s.mode := rfl
@[simp] theorem present_sel : (present x s).sel = s.sel := rfl
@[simp] theorem present_gates : (present x s).gates = s.gates := rfl
@[simp] theorem present_qMem : (present x s).qMem = s.qMem := rfl
@[simp] theorem present_qWr : (present x s).qWr = s.qWr := rfl
@[simp] theorem present_qRd : (present x s).qRd = s.qRd := rfl
@[simp] theorem present_qCount : (present x s).qCount = s.qCount := rfl
@[simp] theorem present_qPbCnt : (present x s).qPbCnt = s.qPbCnt := rfl
@[simp] theorem present_syn : (present x s).syn = s.syn := rfl
@[simp] theorem present_aout : (present x s).aout = s.aout := rfl
@[simp] theorem present_aoCnt : (present x s).aoCnt = s.aoCnt := rfl
@[simp] theorem present_aoDue : (present x s).aoDue = s.aoDue := rfl
@[simp] theorem present_tx : (present x s).tx = s.tx := rfl
@[simp] theorem present_env : (present x s).env = x :: s.env := rfl

theorem fetch_nil (h : s.env = []) : fetch s = none := by simp [fetch, h]

theorem fetch_cons {rest : List Stimulus} (h : s.env = x :: rest) : fetch s = some (x, { s with env := rest }) := by
  simp [fetch, h]

theorem fetch_present : fetch (present x s) = some (x, s) := rfl

/-! ### The fourth button never touches the gates nor the model's own fields (R8) -/

@[simp] theorem btn3Action_cfg : (btn3Action s).cfg = s.cfg := by unfold btn3Action; split <;> rfl
@[simp] theorem btn3Action_gates : (btn3Action s).gates = s.gates := by unfold btn3Action; split <;> rfl
@[simp] theorem btn3Action_tx : (btn3Action s).tx = s.tx := by unfold btn3Action; split <;> rfl
@[simp] theorem btn3Action_env : (btn3Action s).env = s.env := by unfold btn3Action; split <;> rfl

theorem btn3Action_identity (h : s.cfg.btn3 = .identity) : btn3Action s = s := by simp [btn3Action, h]

end Sys2Proof.Machine
end

