-- ==== Sys2Proof/Laws/Ops.lean ====
section
/-! SUPPORT. What each shared operation can do, said once: the proofs cite these and do not unfold the operations. -/

namespace Sys2Proof.Machine

/-! ### Outcomes -/

theorem configured_of_valid {s : State} (h : s.cfg.valid = true) (r : Result) : configured s r = r := by
  simp [configured, h]

theorem configured_of_invalid {s : State} (h : s.cfg.valid = false) (r : Result) :
    configured s r = .refused .invalidConfiguration := by simp [configured, h]

theorem configured_next {s t : State} {r : Result} (h : configured s r = .next t) :
    s.cfg.valid = true ∧ r = .next t := by
  unfold configured at h
  split at h
  · exact ⟨‹_›, h⟩
  · cases h

theorem finish_next {x : Except Stop State} {t : State} (h : finish x = .next t) : x = .ok t := by
  cases x with
  | ok s => cases h; rfl
  | error e => cases e <;> cases h

@[simp] theorem finish_ok (s : State) : finish (.ok s) = .next s := rfl

/-! ### The storage -/

theorem memRead_ok {s : State} {a : Nat} {v : Byte} (hl : a < s.qCount) (hr : Memory.read s.qMem a = some v) :
    memRead s a = .ok v := by simp [memRead, hl, hr]

theorem memRead_cases {s : State} {a : Nat} {v : Byte} (h : memRead s a = .ok v) :
    a < s.qCount ∧ Memory.read s.qMem a = some v := by
  unfold memRead at h
  split at h
  · split at h
    · cases h; exact ⟨‹_›, ‹_›⟩
    · cases h
  · cases h

@[simp] theorem dec_enc (c : Command) : dec (enc c) = .ok c := by cases c <;> rfl

theorem dec_cases {v : Byte} {c : Command} (h : dec v = .ok c) : v = enc c := by
  unfold dec at h
  split at h <;> cases h <;> exact BitVec.eq_of_toNat_eq ‹_›

/-! ### The FIFO -/

/-- The state after an append. -/
def appended (c : Command) (s : State) : State :=
  { s with
    qMem := Memory.write s.qMem s.qWr (enc c)
    qWr := s.qWr + 1
    qCount := s.qCount + 1
    qRd := if s.qCount = 0 then 0 else s.qRd
    qPbCnt := if s.qCount = 0 then 0 else s.qPbCnt }

theorem append_ok {c : Command} {s : State} (h : s.qWr < queueCap) : append c s = .ok (appended c s) := by
  simp [append, memWrite, h, appended]

theorem append_cases {c : Command} {s t : State} (h : append c s = .ok t) : s.qWr < queueCap ∧ t = appended c s := by
  by_cases hw : s.qWr < queueCap
  · rw [append_ok hw] at h; cases h; exact ⟨hw, rfl⟩
  · simp [append, memWrite, hw] at h

/-- The bytes an accepted byte is answered with. -/
def replyBytes (c : Command) (echo : Byte) : List Byte :=
  match c with
  | .invalid => Condition.invalidByte.code
  | .noMovement | .right | .left | .up | .down => [echo]

theorem reply_eq (c : Command) (echo : Byte) (s : State) : reply c echo s = transmit (replyBytes c echo) s := by
  cases c <;> rfl

/-- A received byte is answered by a full queue, or appended and echoed. -/
theorem receive_cases {c : Command} {echo : Byte} {s t : State} (h : receive c echo s = .ok t) :
    (s.qCount = queueCap ∧ t = transmit Condition.queueFull.code s) ∨
      (s.qCount ≠ queueCap ∧ s.qWr < queueCap ∧ t = transmit (replyBytes c echo) (appended c s)) := by
  unfold receive at h
  split at h
  · cases h; exact .inl ⟨‹_›, rfl⟩
  · split at h
    · cases h
    · rename_i hap
      obtain ⟨hw, rfl⟩ := append_cases hap
      cases h
      exact .inr ⟨‹_›, hw, reply_eq c echo _⟩

theorem receive_full {c : Command} {echo : Byte} {s : State} (h : s.qCount = queueCap) :
    receive c echo s = .ok (transmit Condition.queueFull.code s) := by simp [receive, h, raiseCondition]

theorem receive_append {c : Command} {echo : Byte} {s : State} (h : s.qCount ≠ queueCap) (hw : s.qWr < queueCap) :
    receive c echo s = .ok (transmit (replyBytes c echo) (appended c s)) := by
  simp [receive, h, append_ok hw, reply_eq]

/-- The state after a playback of command `c`. -/
def played (c : Command) (s : State) : State :=
  if s.qRd + 1 = s.qCount then { s with syn := synth s.cfg c, qCount := 0, qRd := 0, qWr := 0 }
  else { s with syn := synth s.cfg c, qRd := s.qRd + 1 }

/-- A playback step plays the live entry at the cursor, or does nothing on an empty queue. -/
theorem playback_cases {s t : State} (h : playback s = .ok t) :
    (s.qCount = 0 ∧ t = s) ∨
      (s.qCount ≠ 0 ∧ ∃ c, s.qRd < s.qCount ∧ Memory.read s.qMem s.qRd = some (enc c) ∧ t = played c s) := by
  unfold playback at h
  split at h
  · cases h; exact .inl ⟨‹_›, rfl⟩
  · split at h
    · cases h
    · rename_i hm
      obtain ⟨hl, hr⟩ := memRead_cases hm
      split at h
      · cases h
      · rename_i c hd
        rw [dec_cases hd] at hr
        refine .inr ⟨‹_›, c, hl, hr, ?_⟩
        unfold played
        split at h <;> cases h <;> simp [*]

theorem playback_empty {s : State} (h : s.qCount = 0) : playback s = .ok s := by simp [playback, h]

theorem playback_ok {s : State} {c : Command} (hl : s.qRd < s.qCount) (hr : Memory.read s.qMem s.qRd = some (enc c)) :
    playback s = .ok (played c s) := by
  have h0 : s.qCount ≠ 0 := by omega
  unfold playback played
  simp only [h0, if_false, memRead_ok hl hr, dec_enc]
  split <;> rfl

variable (c : Command) (s : State)

@[simp] theorem played_cfg : (played c s).cfg = s.cfg := by unfold played; split <;> rfl
@[simp] theorem played_ax0 : (played c s).ax0 = s.ax0 := by unfold played; split <;> rfl
@[simp] theorem played_ax1 : (played c s).ax1 = s.ax1 := by unfold played; split <;> rfl
@[simp] theorem played_pin0 : (played c s).pin0 = s.pin0 := by unfold played; split <;> rfl
@[simp] theorem played_pin1 : (played c s).pin1 = s.pin1 := by unfold played; split <;> rfl
@[simp] theorem played_mode : (played c s).mode = s.mode := by unfold played; split <;> rfl
@[simp] theorem played_sel : (played c s).sel = s.sel := by unfold played; split <;> rfl
@[simp] theorem played_gates : (played c s).gates = s.gates := by unfold played; split <;> rfl
@[simp] theorem played_qMem : (played c s).qMem = s.qMem := by unfold played; split <;> rfl
@[simp] theorem played_qPbCnt : (played c s).qPbCnt = s.qPbCnt := by unfold played; split <;> rfl
@[simp] theorem played_syn : (played c s).syn = synth s.cfg c := by unfold played; split <;> rfl
@[simp] theorem played_aout : (played c s).aout = s.aout := by unfold played; split <;> rfl
@[simp] theorem played_aoCnt : (played c s).aoCnt = s.aoCnt := by unfold played; split <;> rfl
@[simp] theorem played_aoDue : (played c s).aoDue = s.aoDue := by unfold played; split <;> rfl
@[simp] theorem played_tx : (played c s).tx = s.tx := by unfold played; split <;> rfl
@[simp] theorem played_env : (played c s).env = s.env := by unfold played; split <;> rfl

/-! ### The tick -/

/-- A tick's third part: no playback or one, and then the counter. -/
theorem tickPlayback_cases {s t : State} (h : tickPlayback s = .ok t) :
    ∃ u, ((s.qPbCnt ≠ 0 ∧ u = s) ∨ (s.qPbCnt = 0 ∧ playback s = .ok u)) ∧
      t = { u with qPbCnt := incMod s.qPbCnt s.cfg.playbackTicks } := by
  unfold tickPlayback at h
  split at h
  · cases h
  · rename_i u hu
    cases h
    split at hu
    · exact ⟨u, .inr ⟨‹_›, hu⟩, rfl⟩
    · cases hu; exact ⟨_, .inl ⟨‹_›, rfl⟩, rfl⟩

@[simp] theorem tickAout_cfg : (tickAout s).cfg = s.cfg := by unfold tickAout; split <;> rfl
@[simp] theorem tickAout_ax0 : (tickAout s).ax0 = s.ax0 := by unfold tickAout; split <;> rfl
@[simp] theorem tickAout_ax1 : (tickAout s).ax1 = s.ax1 := by unfold tickAout; split <;> rfl
@[simp] theorem tickAout_pin0 : (tickAout s).pin0 = s.pin0 := by unfold tickAout; split <;> rfl
@[simp] theorem tickAout_pin1 : (tickAout s).pin1 = s.pin1 := by unfold tickAout; split <;> rfl
@[simp] theorem tickAout_mode : (tickAout s).mode = s.mode := by unfold tickAout; split <;> rfl
@[simp] theorem tickAout_sel : (tickAout s).sel = s.sel := by unfold tickAout; split <;> rfl
@[simp] theorem tickAout_gates : (tickAout s).gates = s.gates := by unfold tickAout; split <;> rfl
@[simp] theorem tickAout_qMem : (tickAout s).qMem = s.qMem := by unfold tickAout; split <;> rfl
@[simp] theorem tickAout_qWr : (tickAout s).qWr = s.qWr := by unfold tickAout; split <;> rfl
@[simp] theorem tickAout_qRd : (tickAout s).qRd = s.qRd := by unfold tickAout; split <;> rfl
@[simp] theorem tickAout_qCount : (tickAout s).qCount = s.qCount := by unfold tickAout; split <;> rfl
@[simp] theorem tickAout_qPbCnt : (tickAout s).qPbCnt = s.qPbCnt := by unfold tickAout; split <;> rfl
@[simp] theorem tickAout_syn : (tickAout s).syn = s.syn := by unfold tickAout; split <;> rfl
@[simp] theorem tickAout_aout : (tickAout s).aout = s.aout := by unfold tickAout; split <;> rfl
@[simp] theorem tickAout_tx : (tickAout s).tx = s.tx := by unfold tickAout; split <;> rfl
@[simp] theorem tickAout_env : (tickAout s).env = s.env := by unfold tickAout; split <;> rfl

/-- The state the tick's playback starts from. -/
abbrev tickStart (s : State) : State := tickAout (tickGates (tickPhase s))

/-! ### A button edge -/

/-- An edge that gives a next state found its gate: closed, nothing happens; open, the action runs and the gate
closes. -/
theorem execBtnEdge_cases {k : BitVec 2} {s t : State} (h : execBtnEdge k s = .next t) :
    s.cfg.valid = true ∧ ∃ g, s.gates[s.cfg.gateOf.of k]? = some g ∧
      ((g.isOpen = false ∧ t = s) ∨ (g.isOpen = true ∧
        t = { buttonAction k s with gates := s.gates.set (s.cfg.gateOf.of k) (g.close s.cfg.debounceTicks) })) := by
  obtain ⟨hv, h⟩ := configured_next h
  split at h
  · cases h
  · rename_i g hg
    refine ⟨hv, g, hg, ?_⟩
    split at h <;> cases h <;> simp [*]

end Sys2Proof.Machine
end

