-- ==== Sys2Proof/Laws/Exec.lean ====
section
/-! SUPPORT. What each operation can do, by inversion: when `exec` gives a next state, the state it gives, in terms of
the named functions of the model. Proofs over all operations cite these and unfold nothing.

A computed word is given as a variable with an equation, so that no proof by `rfl` on the state makes the kernel unfold
the float functions, where it runs out of stack; the field lemmas of `pidUpdate` serve the same purpose. -/

namespace Sys2Proof.Machine

/-! ### The configuration -/

/-- The integer bounds of a valid configuration (R8), and that every button has a gate. -/
theorem Config.bounds {c : Config} (h : c.valid = true) :
    1 ≤ c.maxThrottle ∧ 1 ≤ c.pwmCycleLen ∧ 1 ≤ c.debounceTicks ∧ 1 ≤ c.playbackTicks ∧ 1 ≤ c.aoutTicks ∧
      c.synthMax ≤ sensorMax ∧ c.nGates ≤ maxGates ∧ ∀ k, c.gateOf.of k < c.nGates := by
  simp only [Config.valid, Bool.and_eq_true, decide_eq_true_eq] at h
  obtain ⟨⟨⟨⟨⟨⟨⟨⟨⟨⟨⟨⟨-, h1⟩, h2⟩, h3⟩, h4⟩, h5⟩, h6⟩, -⟩, h8⟩, g0⟩, g1⟩, g2⟩, g3⟩ := h
  refine ⟨h1, h2, h3, h4, h5, h6, h8, fun k => ?_⟩
  unfold GateMap.of; split <;> assumption

/-- SYNTH_MAX of a valid configuration fits a channel, so the channel value is that number. -/
theorem synthMaxOf_toNat {c : Config} (h : c.valid = true) : (synthMaxOf c).toNat = c.synthMax := by
  obtain ⟨-, -, -, -, -, hs, -⟩ := Config.bounds h
  unfold sensorMax at hs
  rw [synthMaxOf, BitVec.toNat_ofNat, Nat.mod_eq_of_lt (by omega)]

/-- The bounds on the words of a valid configuration (U1). -/
structure Config.WordBounds (c : Config) : Prop where
  kp : c.kp.mag ≤ Config.magHuge
  ki : c.ki.mag ≤ Config.magHuge
  kd : c.kd.mag ≤ Config.magHuge
  dtPositive : c.dt.isNeg = false
  dtLow : Config.magTiny ≤ c.dt.mag
  dtHigh : c.dt.mag ≤ Config.magHuge
  windupSign : c.windupLimit.isNeg = false ∨ c.windupLimit.mag = 0
  windupHigh : c.windupLimit.mag ≤ Config.magHuge

theorem Config.wordBounds {c : Config} (h : c.valid = true) : Config.WordBounds c := by
  unfold Config.valid at h
  generalize hH : Config.magHuge = H at h
  generalize hT : Config.magTiny = T at h
  simp only [Bool.and_eq_true, Bool.or_eq_true, Bool.not_eq_true', decide_eq_true_eq] at h
  obtain ⟨⟨⟨⟨⟨⟨⟨⟨⟨⟨⟨⟨⟨⟨⟨⟨⟨⟨⟨h1, h2⟩, h3⟩, h4⟩, h5⟩, h6⟩, h7⟩, h8⟩, -⟩, -⟩, -⟩, -⟩, -⟩, -⟩, -⟩, -⟩, -⟩, -⟩, -⟩, -⟩ := h
  subst hH hT
  exact ⟨h1, h2, h3, h4, h5, h6, h7, h8⟩

theorem magValue_expField {e : Nat} (h : e ≠ 0) : F64.magValue (e * 2 ^ 52) = 2 ^ (52 + (e - 1)) := by
  have := F64.magValue_split e 0 (F64.two_pow_pos 52)
  rwa [Nat.add_zero, if_neg h, Nat.add_zero, F64.two_pow_add] at this

/-- `2^500`, in units. -/
theorem magValue_magHuge : F64.magValue Config.magHuge = 2 ^ 1574 := magValue_expField (Nat.succ_ne_zero _)

/-- `2^-500`, in units. -/
theorem magValue_magTiny : F64.magValue Config.magTiny = 2 ^ 574 := magValue_expField (by decide)

/-- A word that meets an upper bound of U1. -/
theorem below_of_magHuge {x : F64} (h : x.mag ≤ Config.magHuge) : F64.Below x 1574 := by
  have hv : x.scaledAbs ≤ 2 ^ 1574 := magValue_magHuge ▸ F64.magValue_strictMono.monotone h
  exact ⟨F64.isFinite_of_scaledAbs (lt_of_le_of_lt hv (F64.two_pow_lt (by norm_num))), hv⟩

theorem windup_below {c : Config} (h : c.valid = true) : F64.Below (windup c) 1574 ∧ (windup c).isNeg = false := by
  unfold windup
  split
  · exact ⟨⟨F64.zero_isFinite, by rw [F64.zero_scaledAbs]; exact Nat.zero_le _⟩, F64.zero_isNeg⟩
  · exact ⟨below_of_magHuge (Config.wordBounds h).windupHigh, (Config.wordBounds h).windupSign.resolve_right ‹_›⟩

/-! ### A PID update, field by field -/

variable (c : Config) (r : AxisRegs)

@[simp] theorem pidUpdate_setpoint : (pidUpdate c r).setpoint = r.setpoint := by unfold pidUpdate; exact Eq.refl _
@[simp] theorem pidUpdate_measured : (pidUpdate c r).measured = r.measured := by unfold pidUpdate; exact Eq.refl _
@[simp] theorem pidUpdate_error : (pidUpdate c r).error = pidError r := by unfold pidUpdate; exact Eq.refl _
@[simp] theorem pidUpdate_previousError : (pidUpdate c r).previousError = pidError r := by
  unfold pidUpdate; exact Eq.refl _
@[simp] theorem pidUpdate_integral : (pidUpdate c r).integral = pidIntegral c r := by unfold pidUpdate; exact Eq.refl _
@[simp] theorem pidUpdate_derivative : (pidUpdate c r).derivative = pidDerivative c r := by
  unfold pidUpdate; exact Eq.refl _
@[simp] theorem pidUpdate_output : (pidUpdate c r).output = pidOutput c r := by unfold pidUpdate; exact Eq.refl _
@[simp] theorem pidUpdate_direction : (pidUpdate c r).direction = directionOf r.measured := by
  unfold pidUpdate; exact Eq.refl _
@[simp] theorem pidUpdate_throttle : (pidUpdate c r).throttle = throttleOf c (pidOutput c r) := by
  unfold pidUpdate; exact Eq.refl _
@[simp] theorem pidUpdate_pwmPhase : (pidUpdate c r).pwmPhase = r.pwmPhase := by unfold pidUpdate; exact Eq.refl _

theorem throttleOf_bounds {c : Config} (h : 1 ≤ c.maxThrottle) (o : F64) :
    1 ≤ throttleOf c o ∧ throttleOf c o ≤ c.maxThrottle := by
  simp only [throttleOf, clampNat]; omega

/-! ### Actions of the buttons -/

theorem buttonAction_cfg (k : BitVec 2) (s : State) : (buttonAction k s).cfg = s.cfg := by
  unfold buttonAction; split <;> simp

theorem buttonAction_tx (k : BitVec 2) (s : State) : (buttonAction k s).tx = s.tx := by
  unfold buttonAction; split <;> simp

theorem buttonAction_env (k : BitVec 2) (s : State) : (buttonAction k s).env = s.env := by
  unfold buttonAction; split <;> simp

/-- With BTN3_ACTION the identity, an action moves the mode, the selector, or nothing. -/
theorem buttonAction_cases {s : State} (k : BitVec 2) (h : s.cfg.btn3 = .identity) :
    (k = 0 ∧ buttonAction k s = { s with mode := joystickToggle s.cfg s.mode }) ∨
      (k = 1 ∧ buttonAction k s = { s with mode := replayToggle s.mode }) ∨
      (k = 2 ∧ buttonAction k s = { s with sel := otherAxis s.sel }) ∨ (k = 3 ∧ buttonAction k s = s) := by
  have : ∀ k : BitVec 2, k = 0 ∨ k = 1 ∨ k = 2 ∨ k = 3 := by decide
  rcases this k with rfl | rfl | rfl | rfl <;> simp [buttonAction, btn3Action_identity s h]

/-! ### Inversion of `exec` -/

variable {s t : State}

/-- Every operation stops in a configuration that breaks a constraint. -/
theorem valid_of_exec {i : Instr} (h : exec i s = .next t) : s.cfg.valid = true := by
  by_contra hv
  rw [Bool.not_eq_true] at hv
  have : exec i s = .refused .invalidConfiguration := by cases i <;> exact configured_of_invalid hv _
  rw [this] at h; cases h

theorem exec_reset_inv (h : exec .reset s = .next t) : t = resetState s := by
  obtain ⟨-, h⟩ := configured_next h; cases h; rfl

theorem exec_sample_inv {a b c d : BitVec 12} (h : exec (.sample a b c d) s = .next t) :
    ∃ v x y, v = sampleSource s ⟨a, b, c, d⟩ ∧ x = channelDiff v.c0 v.c1 ∧ y = channelDiff v.c2 v.c3 ∧
      t = { s with ax0 := { s.ax0 with measured := x }, ax1 := { s.ax1 with measured := y } } := by
  obtain ⟨-, h⟩ := configured_next h; cases h; exact ⟨_, _, _, rfl, rfl, rfl, rfl⟩

theorem exec_pidStep_inv {a : AxisId} (h : exec (.pidStep a) s = .next t) :
    ∃ r, r = pidUpdate s.cfg (s.ax a) ∧ t = s.setAx a r := by
  obtain ⟨-, h⟩ := configured_next h; cases h; exact ⟨_, rfl, rfl⟩

theorem exec_pwmStep_inv {a : AxisId} {en : Bool} (h : exec (.pwmStep a en) s = .next t) :
    t = s.setPin a (pinsOf s.cfg (s.ax a) en) := by
  obtain ⟨-, h⟩ := configured_next h; cases h; rfl

theorem exec_aoutStep_inv (h : exec .aoutStep s = .next t) :
    (s.aoDue = true ∧ ∃ v, v = aoutOf (s.ax s.sel).error ∧ t = { s with aout := v, aoDue := false }) ∨
      (s.aoDue = false ∧ t = s) := by
  obtain ⟨-, h⟩ := configured_next h
  split at h <;> cases h
  · exact .inl ⟨‹_›, _, rfl, rfl⟩
  · exact .inr ⟨by rename_i hd; simpa using hd, rfl⟩

theorem exec_gateTimeout_inv {g : BitVec 2} (h : exec (.gateTimeout g) s = .next t) :
    ∃ x, s.gates[g.toNat]? = some x ∧ t = { s with gates := s.gates.set g.toNat x.timeout } := by
  obtain ⟨-, h⟩ := configured_next h
  split at h <;> cases h
  exact ⟨_, ‹_›, rfl⟩

theorem exec_playbackStep_inv (h : exec .playbackStep s = .next t) : playback s = .ok t :=
  finish_next (configured_next h).2

/-- A playback, or the absence of one, inside a tick: no change, or one command played. -/
theorem tickPlayed_cases {u : State} (h : if s.qPbCnt = 0 then playback s = .ok u else u = s) :
    u = s ∨ ∃ c, s.qRd < s.qCount ∧ Memory.read s.qMem s.qRd = some (enc c) ∧ u = played c s := by
  split at h
  · rcases playback_cases h with ⟨-, rfl⟩ | ⟨-, c, hl, hr, rfl⟩
    · exact .inl rfl
    · exact .inr ⟨c, hl, hr, rfl⟩
  · exact .inl h

/-- `Gate.tick` as one expression. -/
theorem gate_tick_eq (g : Gate) : g.tick = if g.isOpen then g else ⟨decide (g.dbCnt = 1), g.dbCnt - 1⟩ := by
  obtain ⟨o, d⟩ := g
  cases o
  · by_cases h : d = 1 <;> simp [Gate.tick, Gate.timeout, h]
  · simp [Gate.tick]

/-- What the first, second and fourth part of a tick write. -/
theorem tickStart_eq (s : State) : tickStart s = { s with
    ax0 := { s.ax0 with pwmPhase := incMod s.ax0.pwmPhase s.cfg.pwmCycleLen }
    ax1 := { s.ax1 with pwmPhase := incMod s.ax1.pwmPhase s.cfg.pwmCycleLen }
    gates := s.gates.map Gate.tick
    aoCnt := if s.aoCnt + 1 = s.cfg.aoutTicks then 0 else s.aoCnt + 1
    aoDue := s.aoDue || decide (s.aoCnt + 1 = s.cfg.aoutTicks) } := by
  by_cases h : s.aoCnt + 1 = s.cfg.aoutTicks <;> simp [tickAout, tickGates, tickPhase, h]

/-- A tick that gives a next state, from the state `u` its playback leaves. -/
theorem exec_tick_inv (h : exec .tick s = .next t) :
    ∃ u, (if s.qPbCnt = 0 then playback s = .ok u else u = s) ∧ t = { u with
      ax0 := { s.ax0 with pwmPhase := incMod s.ax0.pwmPhase s.cfg.pwmCycleLen }
      ax1 := { s.ax1 with pwmPhase := incMod s.ax1.pwmPhase s.cfg.pwmCycleLen }
      gates := s.gates.map Gate.tick
      qPbCnt := incMod s.qPbCnt s.cfg.playbackTicks
      aoCnt := if s.aoCnt + 1 = s.cfg.aoutTicks then 0 else s.aoCnt + 1
      aoDue := s.aoDue || decide (s.aoCnt + 1 = s.cfg.aoutTicks) } := by
  obtain ⟨u, hu, rfl⟩ := tickPlayback_cases (finish_next (configured_next h).2)
  clear h
  rw [show tickAout (tickGates (tickPhase s)) = _ from tickStart_eq s] at hu ⊢
  rcases hu with ⟨h0, rfl⟩ | ⟨h0, hp⟩
  · exact ⟨s, by rw [if_neg h0], rfl⟩
  · rcases playback_cases hp with ⟨hc, rfl⟩ | ⟨-, c, hl, hr, rfl⟩
    · exact ⟨s, by rw [if_pos h0]; exact playback_empty hc, rfl⟩
    · refine ⟨played c s, by rw [if_pos h0]; exact playback_ok hl hr, ?_⟩
      unfold played
      simp only
      split <;> rfl

/-! ### The serial operations -/

theorem replyBytes_commandOf (b : Byte) : replyBytes (commandOf b) (echoOf b) = [echoOf b] := by
  revert b; decide +kernel

theorem commandOf_of_not_inAlphabet {b : Byte} (h : inAlphabet b = false) :
    commandOf b = .invalid ∧ echoOf b = 0x65 := by
  revert b; decide +kernel

/-- Any operation that receives a byte: a full queue answers, otherwise the command of the byte is appended. -/
theorem exec_serial_inv {i : Instr} {b : Byte} (hb : receivedByte i = some b) (h : exec i s = .next t) :
    (s.qCount = queueCap ∧ t = transmit Condition.queueFull.code s) ∨
      (s.qCount ≠ queueCap ∧ s.qWr < queueCap ∧ t = transmit [echoOf b] (appended (commandOf b) s)) := by
  have key : ∀ c e, exec i s = configured s (finish (receive c e s)) → c = commandOf b → replyBytes c e = [echoOf b] →
      (s.qCount = queueCap ∧ t = transmit Condition.queueFull.code s) ∨
        (s.qCount ≠ queueCap ∧ s.qWr < queueCap ∧ t = transmit [echoOf b] (appended (commandOf b) s)) := by
    rintro c e he rfl hr
    rw [he] at h
    have := receive_cases (finish_next (configured_next h).2)
    rwa [hr] at this
  cases i <;> cases hb
  case serialRx => exact key _ _ rfl rfl (replyBytes_commandOf _)
  case cmdInvalid =>
    obtain ⟨-, h'⟩ := configured_next h
    split at h'
    · cases h'
    · rename_i hb
      rw [Bool.not_eq_true] at hb
      obtain ⟨hc, he⟩ := commandOf_of_not_inAlphabet hb
      refine key .invalid 0x65 ?_ hc.symm (by rw [he]; rfl)
      show execCmdInvalid b s = _
      simp [execCmdInvalid, hb]
  all_goals exact key _ _ rfl rfl rfl

theorem execAll_append (xs ys : List Instr) (s : State) :
    execAll (xs ++ ys) s = match execAll xs s with
      | .next t => execAll ys t
      | .fault r => .fault r
      | .refused r => .refused r := by
  induction xs generalizing s with
  | nil => rfl
  | cons x xs ih =>
    simp only [List.cons_append, execAll]
    cases exec x s <;> simp [ih]

end Sys2Proof.Machine
end

