-- ==== Sys2Proof/Tests/Slice0.lean ====
section
/-! SUPPORT. Own tests: decoding of words written out from the encoding tables, the checks of well-formedness, one step
per test with the value the spec's vectors give (95_test_vectors.md, the vector named beside each), and for every
statement with hypotheses a state that meets them all. -/

namespace Sys2Proof.Tests

set_option Elab.async false

open Sys2Proof.Machine

/-! ### Helpers -/

/-- The reset state of EX1 and of EX2 (R10). -/
def r1 : State := State.resetWith Config.ex1
def r2 : State := State.resetWith Config.ex2

/-- The next state, or the old one where the operation stops. -/
def after (i : Instr) (s : State) : State :=
  match exec i s with
  | .next t => t
  | .fault _ => s
  | .refused _ => s

/-- The operations one after another. -/
def afterAll (is : List Instr) (s : State) : State := is.foldl (fun t i => after i t) s

/-- The outcome is a next state. -/
def goesOn : Result → Bool
  | .next _ => true
  | .fault _ => false
  | .refused _ => false

theorem next_of_goesOn {i : Instr} {s : State} (h : goesOn (exec i s) = true) : exec i s = .next (after i s) := by
  unfold after
  cases he : exec i s <;> simp_all [goesOn]

theorem exists_of_goesOn {r : Result} (h : goesOn r = true) : ∃ t, r = .next t := by
  cases r with
  | next t => exact ⟨t, rfl⟩
  | fault _ => cases h
  | refused _ => cases h

/-- One axis with a reading of `n`. -/
def withReading (s : State) (n : Int) : State := { s with ax0 := { s.ax0 with measured := F64.ofInt n } }

/-! ### Decoding: the word of each operation, bit by bit from R81, and the byte of each class from R82 -/

theorem test_decode_reset : decodeTableWord 64 0x0 = some .reset := by decide
theorem test_decode_tick : decodeTableWord 64 0x1 = some .tick := by decide
/-- `op` 2 in bits 3..0, `k` = 3 in bits 5..4. -/
theorem test_decode_btn_edge : decodeTableWord 64 0b110010 = some (.btnEdge 3) := by decide
/-- `op` 3, `b` = 0x0D in bits 11..4 (V-ENC1). -/
theorem test_decode_serial_rx : decodeTableWord 64 0b000011010011 = some (.serialRx 0x0D) := by decide
/-- V-SMP1's word: adc0 110 in bits 15..4, adc1 100, adc2 and adc3 2048. -/
theorem test_decode_sample : decodeTableWord 64 0x00080080006406E4 = some (.sample 110 100 2048 2048) := by decide
theorem test_decode_pid_step : decodeTableWord 64 0b00101 = some (.pidStep .axis0) ∧
    decodeTableWord 64 0b10101 = some (.pidStep .axis1) := by decide
/-- `a` in bit 4, `en` in bit 5. -/
theorem test_decode_pwm_step : decodeTableWord 64 0b100110 = some (.pwmStep .axis0 true) ∧
    decodeTableWord 64 0b010110 = some (.pwmStep .axis1 false) := by decide
theorem test_decode_aout_step : decodeTableWord 64 0x7 = some .aoutStep := by decide
theorem test_decode_gate_timeout : decodeTableWord 64 0x8 = some (.gateTimeout 0) ∧
    decode 4 (.tickPart 0b111000) = .ok (.gateTimeout 3) := by decide
theorem test_decode_playback_step : decodeTableWord 64 0x9 = some .playbackStep := by decide
theorem test_decode_classes : decodeTableWord 8 0x30 = some .cmdNomove ∧ decodeTableWord 8 0x31 = some .cmdRight ∧
    decodeTableWord 8 0x32 = some .cmdLeft ∧ decodeTableWord 8 0x33 = some .cmdUp ∧
    decodeTableWord 8 0x34 = some .cmdDown ∧ decodeTableWord 8 0x0D = some .cmdEnd := by decide
theorem test_decode_cmd_invalid : decodeTableWord 8 0x35 = some (.cmdInvalid 0x35) ∧
    decodeTableWord 8 0x0A = some (.cmdInvalid 0x0A) ∧ decodeTableWord 8 0x00 = some (.cmdInvalid 0) ∧
    decodeTableWord 8 0xFF = some (.cmdInvalid 0xFF) := by decide
/-- V-ENC2, and a micro-operation on its own in a run. -/
theorem test_decode_refuses : decode 1 (.event 0xA) = .error .reservedOpcode ∧
    decode 1 (.event 0x11) = .error .strayBits ∧ decode 1 (.event 0x0010000000000004) = .error .strayBits ∧
    decode 1 (.tickPart 0x18) = .error .noGate ∧ decode 1 (.event 0x9) = .error .microOutsideTick ∧
    decode 1 (.tickPart 0x1) = .error .notMicro := by decide
/-- V-ENC3: six exact classes, 250 bytes of the last. -/
theorem test_classes_count : ((List.range 256).filter (fun n => inAlphabet (BitVec.ofNat 8 n))).length = 6 := by
  decide +kernel
/-- No word selects two rows of the table. -/
theorem test_rows_disjoint :
    eventRows.Pairwise (fun r q => r.value &&& q.mask &&& r.mask ≠ q.value &&& r.mask) := by decide +kernel

/-! ### Well-formedness: each check refuses an ill-formed instruction -/

theorem test_wf_gate : Instr.wf 3 (.gateTimeout 3) = false ∧ Instr.wf 4 (.gateTimeout 3) = true := by decide
theorem test_wf_cmd_invalid : Instr.wf 1 (.cmdInvalid 0x0D) = false ∧ Instr.wf 1 (.cmdInvalid 0x34) = false ∧
    Instr.wf 1 (.cmdInvalid 0x35) = true := by decide

/-! ### Configurations -/

theorem valid1 : Config.ex1.valid = true := by decide +kernel
theorem valid2 : Config.ex2.valid = true := by decide +kernel

/-- U1: each constraint refuses what breaks it. -/
theorem test_config_refused :
    ({ Config.ex1 with pwmCycleLen := 0 } : Config).valid = false ∧
    ({ Config.ex1 with dt := ⟨0⟩ } : Config).valid = false ∧
    ({ Config.ex1 with kp := ⟨0x7FF0000000000000⟩ } : Config).valid = false ∧
    ({ Config.ex1 with windupLimit := ⟨0xBFF0000000000000⟩ } : Config).valid = false ∧
    ({ Config.ex1 with windupLimit := ⟨0x8000000000000000⟩ } : Config).valid = true ∧
    ({ Config.ex1 with synthMax := 4096 } : Config).valid = false ∧
    ({ Config.ex1 with gateOf := ⟨0, 0, 0, 1⟩ } : Config).valid = false := by decide +kernel

/-! ### Floating point: words of known values -/

/-- 0.1 + 0.2 is 0x3FD3333333333334, 0.1 * 3.0 is 0x3FD3333333333334, 1.0 / 3.0 is 0x3FD5555555555555 in binary64. -/
theorem test_float_words :
    F64.fadd ⟨0x3FB999999999999A⟩ ⟨0x3FC999999999999A⟩ = ⟨0x3FD3333333333334⟩ ∧
    F64.fmul ⟨0x3FB999999999999A⟩ ⟨0x4008000000000000⟩ = ⟨0x3FD3333333333334⟩ ∧
    F64.fdiv ⟨0x3FF0000000000000⟩ ⟨0x4008000000000000⟩ = ⟨0x3FD5555555555555⟩ ∧
    F64.fsub ⟨0x3FF0000000000000⟩ ⟨0x3FF0000000000000⟩ = ⟨0⟩ := by decide +kernel
/-- Half away from zero, truncation toward zero: 2.5 and -2.5 (R107, R171). -/
theorem test_round_words : F64.fround ⟨0x4004000000000000⟩ = 3 ∧ F64.fround ⟨0xC004000000000000⟩ = -3 ∧
    F64.ftrunc ⟨0x4004000000000000⟩ = 2 ∧ F64.ftrunc ⟨0xC004000000000000⟩ = -2 := by decide +kernel

/-! ### One step of each operation -/

/-- V-RS1. -/
theorem test_reset : after .reset (afterAll [.btnEdge 0, .tick, .btnEdge 2] r1) = r1 := by decide +kernel

/-- V-TK1, first tick. -/
theorem test_tick_first : (after .tick r1).ax1.pwmPhase = 1 ∧ (after .tick r1).qPbCnt = 1 ∧ (after .tick r1).aoCnt = 1 ∧
    (after .tick r1).aoDue = false ∧ (after .tick r1).gates = [⟨true, 0⟩] := by decide +kernel
/-- V-TK2 and V-TK3: every counter of EX2 wraps. -/
theorem test_tick_wraps :
    let s := { r2 with ax0 := { r2.ax0 with pwmPhase := 99 }, ax1 := { r2.ax1 with pwmPhase := 99 } }
    (after .tick s).ax0.pwmPhase = 0 ∧ (after .tick s).qPbCnt = 0 ∧ (after .tick s).aoCnt = 0 ∧
      (after .tick s).aoDue = true := by decide +kernel

/-- V-DB1: the edge is accepted, then another of the same gate dropped. -/
theorem test_btn_edge_window : after (.btnEdge 0) r1 = { r1 with mode := .scripted, gates := [⟨false, 3⟩] } ∧
    after (.btnEdge 1) (after (.btnEdge 0) r1) = after (.btnEdge 0) r1 := by decide +kernel
/-- V-DB4 and V-MD2. -/
theorem test_btn_edge_fourth : after (.btnEdge 3) r1 = { r1 with gates := [⟨false, 3⟩] } ∧
    after (.btnEdge 2) r1 = { r1 with sel := .axis1, gates := [⟨false, 3⟩] } := by decide +kernel

/-- V-Q1, `RX '1'` and `RX '\r'`. -/
theorem test_serial_rx :
    after (.serialRx 0x31) r1 = { r1 with qMem := [(0, 1)], qWr := 1, qCount := 1, tx := [0x31] } ∧
    after (.serialRx 0x0D) r1 = { r1 with qMem := [(0, 0)], qWr := 1, qCount := 1, tx := [0x72] } := by decide +kernel
/-- V-Q3: a full queue. -/
theorem test_serial_rx_full : after (.serialRx 0x41) { r1 with qCount := 1024, qWr := 1024 } =
    { r1 with qCount := 1024, qWr := 1024, tx := [0x45, 0x4F, 0x42] } := by decide +kernel

/-- V-SMP2, the extremes: 4095.0 and -4095.0. -/
theorem test_sample_live : (after (.sample 4095 0 0 4095) r1).ax0.measured = ⟨0x40AFFE0000000000⟩ ∧
    (after (.sample 4095 0 0 4095) r1).ax1.measured = ⟨0xC0AFFE0000000000⟩ := by decide +kernel
/-- V-SMP3: the synthetic source. -/
theorem test_sample_synthetic :
    let s := { r1 with mode := .scripted, syn := ⟨0, 4095, 0, 0⟩ }
    (after (.sample 110 100 2048 2048) s).ax0.measured = ⟨0xC0AFFE0000000000⟩ ∧
      (after (.sample 110 100 2048 2048) s).ax1.measured = ⟨0⟩ := by decide +kernel

/-- V-PID1, step 1: error -10, integral -5, derivative -20, output -27.5, throttle 28, Forward. -/
theorem test_pid_step : (after (.pidStep .axis0) (withReading r1 10)).ax0 =
    ⟨⟨0⟩, ⟨0x4024000000000000⟩, ⟨0xC024000000000000⟩, ⟨0xC024000000000000⟩, ⟨0xC014000000000000⟩,
      ⟨0xC034000000000000⟩, ⟨0xC03B800000000000⟩, .forward, 28, 0⟩ := by decide +kernel
/-- V-PID5, step 1: integral 100 at the limit, output 2550, throttle 100, Reverse. -/
theorem test_pid_step_clamps :
    let r := (after (.pidStep .axis0) (withReading r1 (-1000))).ax0
    r.integral = ⟨0x4059000000000000⟩ ∧ r.output = ⟨0x40A3EC0000000000⟩ ∧ r.throttle = 100 ∧
      r.direction = .reverse := by decide +kernel

/-- R120's worked example: on at phase 279, off at 280, direction pins Forward. -/
theorem test_pwm_step :
    let s := { r1 with ax0 := { r1.ax0 with throttle := 28, pwmPhase := 279 } }
    let t := { r1 with ax0 := { r1.ax0 with throttle := 28, pwmPhase := 280 } }
    (after (.pwmStep .axis0 true) s).pin0 = ⟨true, true, false⟩ ∧
      (after (.pwmStep .axis0 true) t).pin0 = ⟨false, true, false⟩ ∧
      (after (.pwmStep .axis0 false) s).pin0 = ⟨false, true, false⟩ := by decide +kernel
/-- V-PWM3: the division comes first: threshold 90 of 100 at full throttle of EX2. -/
theorem test_pwm_step_truncates :
    let s := fun p => { r2 with ax1 := { r2.ax1 with throttle := 30, pwmPhase := p } }
    (after (.pwmStep .axis1 true) (s 89)).pin1.pwm = true ∧ (after (.pwmStep .axis1 true) (s 90)).pin1.pwm = false := by
  decide +kernel

/-- V-AO1: error 300.0 gives 812. -/
theorem test_aout_step :
    let s := { r1 with aoDue := true, ax0 := { r1.ax0 with error := ⟨0x4072C00000000000⟩ } }
    (after .aoutStep s).aout = 812 ∧ (after .aoutStep s).aoDue = false := by decide +kernel
/-- V-AO2 and V-AO5: error -513.0 gives 0, 512.0 gives 1023, 0.75 gives 512. -/
theorem test_aout_step_clamps :
    let s := fun e => { r1 with aoDue := true, ax0 := { r1.ax0 with error := e } }
    (after .aoutStep (s ⟨0xC080080000000000⟩)).aout = 0 ∧ (after .aoutStep (s ⟨0x4080000000000000⟩)).aout = 1023 ∧
      (after .aoutStep (s ⟨0x3FE8000000000000⟩)).aout = 512 := by decide +kernel

/-- R133: only `is_open` is written. -/
theorem test_gate_timeout : after (.gateTimeout 0) { r1 with gates := [⟨false, 0⟩] } = r1 := by decide +kernel

/-- V-Q2, command 4, and R160's worked example, first step. -/
theorem test_playback_step :
    after .playbackStep { r1 with qMem := [(0, 4)], qCount := 1, qWr := 1, syn := ⟨9, 9, 9, 9⟩ } =
      { r1 with qMem := [(0, 4)], syn := ⟨0, 0, 0, 4095⟩ } ∧
    after .playbackStep { r1 with qMem := [(0, 1), (1, 3)], qCount := 2, qWr := 2 } =
      { r1 with qMem := [(0, 1), (1, 3)], qCount := 2, qWr := 2, qRd := 1, syn := ⟨4095, 0, 0, 0⟩ } := by
  decide +kernel

/-- V-Q1, one vector per class: the code stored and the reply. -/
theorem test_cmd_classes :
    ([Instr.cmdNomove, .cmdRight, .cmdLeft, .cmdUp, .cmdDown, .cmdEnd, .cmdInvalid 0x41].map
      (fun i => ((after i r1).qMem, (after i r1).tx))) =
    [([(0, 0)], [0x30]), ([(0, 1)], [0x31]), ([(0, 2)], [0x32]), ([(0, 3)], [0x33]), ([(0, 4)], [0x34]),
      ([(0, 0)], [0x72]), ([(0, 5)], [0x65])] := by decide +kernel
/-- V-Q8: the first entry of an empty queue zeroes the cadence counter; V-Q5: a later entry does not. -/
theorem test_cmd_rearms : (after .cmdRight { r1 with qPbCnt := 1 }).qPbCnt = 0 ∧
    (after .cmdUp { r1 with qCount := 2, qWr := 2, qRd := 1, qPbCnt := 1 }).qPbCnt = 1 ∧
    (after .cmdUp { r1 with qCount := 2, qWr := 2, qRd := 1, qPbCnt := 1 }).qRd = 1 := by decide +kernel

/-- A table word put where the step fetches is run by the next step. -/
theorem test_fetch : goesOn (step (State.reset.withFetchWord 64 0x22)) = true ∧
    goesOn (step (State.reset.withFetchWord 8 0x41)) = true ∧ goesOn (step (State.reset.withFetchWord 64 0x8)) = true ∧
    goesOn (step State.reset) = true := by decide +kernel
/-- R91, R92: MAIN stands for the six steps, with readings clamped (R86). -/
theorem test_trace_main : traceStimuli [.main 7 5000 7 7 true false] =
    [.event 0x000007007FFF0074, .event 0x05, .event 0x15, .event 0x26, .event 0x16, .event 0x07] := by decide
/-- R216, R137: a falling edge is BTN_EDGE, a release is nothing. -/
theorem test_ports : buttonLine 2 true false = some (.btnEdge 2) ∧ buttonLine 2 false true = none ∧
    (Strobe.pwmStep .axis1 true).operation = .pwmStep .axis1 true ∧ r1.outputs.adcEn = true := by decide

/-! ### Witnesses: for every statement with hypotheses, a state and operands that meet them all -/

theorem next_pid (a : AxisId) {s : State} (h : s.cfg.valid = true) :
    exec (.pidStep a) s = .next (s.setAx a (pidUpdate s.cfg (s.ax a))) := configured_of_valid h _

theorem isReading_zero : IsReading F64.zero := ⟨0, by norm_num, by norm_num, F64.ofInt_zero.symm⟩

theorem axisInv_reset1 : AxisInv Config.ex1 AxisRegs.reset :=
  ⟨rfl, isReading_zero, isReading_zero, isReading_zero, ⟨by decide +kernel, by decide +kernel⟩, by decide +kernel,
    by decide +kernel, Nat.zero_le _⟩

/-- The invariants hold at a reset state with a tick presented. -/
theorem inv_witness : Inv { r1 with env := [.event 1] } where
  config := valid1
  btn3 := rfl
  axis0 := axisInv_reset1
  axis1 := axisInv_reset1
  phase := ⟨by decide, rfl⟩
  gates := ⟨rfl, by simp [r1, State.resetWith, Config.ex1, GateInv, Gate.reset]⟩
  queue := ⟨by decide, rfl, by decide, fun _ => rfl⟩
  storage := ⟨rfl, fun i hi => absurd hi (Nat.not_lt_zero i)⟩
  syn := ⟨.inl rfl, .inl rfl, .inl rfl, .inl rfl, by decide⟩
  cadence := ⟨by decide, by decide⟩

theorem isRun_witness : IsRun { r1 with env := [.event 1] } := by
  intro w h; simp at h

theorem test_memory_reset_wf : Memory.wf State.reset.qMem = true := rfl

theorem test_witness_decode_inverts_encode : Instr.wf 1 (.gateTimeout 0) = true ∧ Instr.wf 4 (.gateTimeout 3) = true ∧
    Instr.wf 1 (.cmdInvalid 0xFF) = true := by decide
theorem test_witness_encode_inverts_decode : decode 1 (.event 0x22) = .ok (.btnEdge 2) := by decide
theorem test_witness_step_runs : ({ r1 with env := [.event 0x22] } : State).env = .event 0x22 :: [] ∧
    decode r1.cfg.nGates (.event 0x22) = .ok (.btnEdge 2) := by decide
theorem test_witness_step_refuses : ({ r1 with env := [.event 0xA] } : State).env = .event 0xA :: [] ∧
    decode r1.cfg.nGates (.event 0xA) = .error .reservedOpcode ∧ r1.env = [] := by decide
theorem test_witness_micro : slice 0x8 3 0 = 8 ∧ slice 0xFFFFFFFFFFFFFFF9 3 0 = 9 ∧
    ({ r1 with env := [.event 0x8] } : State).env = .event 0x8 :: [] := by decide
theorem test_witness_fetched : stimulusOfTableWord 64 0x9 = some (.tickPart 0x9) ∧
    decode r1.cfg.nGates (.tickPart 0x9) = .ok .playbackStep ∧ stimulusOfTableWord 8 0x0D = some (.serial 0x0D) ∧
    decode r1.cfg.nGates (.serial 0x0D) = .ok .cmdEnd := by decide
theorem test_witness_invalid_config : ({ Config.ex1 with maxThrottle := 0 } : Config).valid = false := by
  decide +kernel
/-- For every statement whose only hypothesis is a valid configuration. -/
theorem test_witness_valid : r1.cfg.valid = true ∧ r2.cfg.valid = true := ⟨valid1, valid2⟩
theorem test_witness_reset_forgets : r1.cfg = (after .tick r1).cfg ∧ exec .reset r1 = .next (after .reset r1) ∧
    exec .reset (after .tick r1) = .next (after .reset (after .tick r1)) :=
  ⟨by decide +kernel, next_of_goesOn (by decide +kernel), next_of_goesOn (by decide +kernel)⟩

/-- 1.0, and the largest finite word minus itself. -/
theorem test_witness_sums :
    let x : F64 := ⟨0x3FF0000000000000⟩
    let y : F64 := ⟨0x7FEFFFFFFFFFFFFF⟩
    x.isFinite = true ∧ y.isFinite = true ∧ |x.scaled + y.scaled| < 2 ^ 2098 - 2 ^ 2044 ∧
      |y.scaled - y.scaled| < 2 ^ 2098 - 2 ^ 2044 := by decide +kernel
theorem test_witness_products :
    let x : F64 := ⟨0x3FF0000000000000⟩
    let y : F64 := ⟨0x7FEFFFFFFFFFFFFF⟩
    x.isFinite = true ∧ y.isFinite = true ∧ |x.scaled * y.scaled| < (2 ^ 2098 - 2 ^ 2044) * F64.one1074 := by
  decide +kernel
theorem test_witness_quotients :
    let x : F64 := ⟨0x7FEFFFFFFFFFFFFF⟩
    let y : F64 := ⟨0x3FF0000000000000⟩
    x.isFinite = true ∧ y.isFinite = true ∧ 0 < y.scaled ∧
      |x.scaled * F64.one1074| < (2 ^ 2098 - 2 ^ 2044) * y.scaled := by decide +kernel
/-- A tie, 2.5. -/
theorem test_witness_round : (⟨0x4004000000000000⟩ : F64).isFinite = true ∧
    2 * |F64.fround ⟨0x4004000000000000⟩ * F64.one1074 - (⟨0x4004000000000000⟩ : F64).scaled| = F64.one1074 := by
  decide +kernel

/-- Both ends of the range of `of_int` and of the readings, and zero. -/
theorem test_witness_integers : ∀ n ∈ ([-(2 ^ 53 - 1), -4095, 0, 4095, 2 ^ 53 - 1] : List Int), |n| < 2 ^ 53 := by
  decide
theorem test_witness_sample : r1.cfg.valid = true ∧ r1.mode = .sensorTracking ∧
    ({ r1 with mode := .scripted } : State).mode ≠ .sensorTracking ∧
    ({ r1 with mode := .replay } : State).mode ≠ .sensorTracking := ⟨valid1, by decide⟩
/-- A throttle at MAX_THROTTLE, a PID step, and a step that keeps a throttle of 1. -/
theorem test_witness_throttle :
    let s := { r1 with ax0 := { r1.ax0 with throttle := 100 } }
    let u := { r1 with ax0 := { r1.ax0 with throttle := 1 } }
    s.cfg.btn3 = .identity ∧ exec (.pidStep .axis0) s = .next (after (.pidStep .axis0) s) ∧
      (s.ax .axis0).throttle ≤ s.cfg.maxThrottle ∧ exec .tick u = .next (after .tick u) ∧ Instr.tick ≠ .reset ∧
      1 ≤ (u.ax .axis0).throttle :=
  ⟨rfl, next_of_goesOn (by decide +kernel), by decide, next_of_goesOn (by decide +kernel), by decide, by decide⟩
/-- Readings at both ends and at zero; the setpoint zero. -/
theorem test_witness_reading :
    (∀ n : Int, n ∈ [-4095, -1, 0, 1, 4095] → -4095 ≤ n ∧ n ≤ 4095 ∧
      ((withReading r1 n).ax .axis0).measured = F64.ofInt n ∧ ((withReading r1 n).ax .axis0).setpoint = F64.zero ∧
      ∃ t, exec (.pidStep .axis0) (withReading r1 n) = .next t) := by
  intro n h
  refine ⟨?_, ?_, rfl, rfl, _, next_pid .axis0 valid1⟩ <;> simp at h <;> omega
theorem test_witness_axis_invariants : r1.cfg.btn3 = .identity ∧ AxisInv r1.cfg r1.ax0 ∧ AxisInv r1.cfg r1.ax1 ∧
    exec (.pidStep .axis1) r1 = .next (after (.pidStep .axis1) r1) :=
  ⟨rfl, axisInv_reset1, axisInv_reset1, next_of_goesOn (by decide +kernel)⟩
theorem test_witness_on_duration :
    ((({ r1 with ax0 := { r1.ax0 with throttle := 100 } } : State).ax .axis0).throttle ≤ r1.cfg.maxThrottle) ∧
    (r1.ax .axis1).throttle ≤ r1.cfg.maxThrottle ∧ r1.cfg.valid = true := ⟨by decide, by decide, valid1⟩

theorem test_witness_button_gate : r1.cfg.valid = true ∧ r1.gates[r1.cfg.gateOf.of 3]? = some ⟨true, 0⟩ ∧
    (after (.btnEdge 0) r1).gates[(after (.btnEdge 0) r1).cfg.gateOf.of 3]? = some ⟨false, 3⟩ ∧
    (after (.btnEdge 0) r1).cfg.valid = true := by decide +kernel
theorem test_witness_dropped_edges :
    let s := after (.btnEdge 0) r1
    s.cfg.valid = true ∧ s.gates[0]? = some ⟨false, 3⟩ ∧ ∀ k ∈ ([0, 1, 3] : List (BitVec 2)), s.cfg.gateOf.of k = 0 := by
  decide +kernel
theorem test_witness_gate_timeout : r1.cfg.valid = true ∧ r1.gates[(0 : BitVec 2).toNat]? = some ⟨true, 0⟩ :=
  ⟨valid1, by decide⟩
/-- The window just before it ends and as it ends: 2 and 3 ticks after an accepted edge in EX1. -/
theorem test_witness_window : r1.gates[r1.cfg.gateOf.of 1]? = some ⟨true, 0⟩ ∧
    exec (.btnEdge 1) r1 = .next (after (.btnEdge 1) r1) ∧
    (∃ t, execAll (List.replicate 2 .tick) (after (.btnEdge 1) r1) = .next t) ∧
    ∃ t, execAll (List.replicate 3 .tick) (after (.btnEdge 1) r1) = .next t :=
  ⟨by decide, next_of_goesOn (by decide +kernel), exists_of_goesOn (by decide +kernel),
    exists_of_goesOn (by decide +kernel)⟩
theorem test_witness_toggles : r1.cfg.valid = true ∧ r1.gates[r1.cfg.gateOf.of0]? = some ⟨true, 0⟩ ∧
    r1.gates[r1.cfg.gateOf.of1]? = some ⟨true, 0⟩ ∧ r1.gates[r1.cfg.gateOf.of2]? = some ⟨true, 0⟩ ∧
    r1.gates[r1.cfg.gateOf.of3]? = some ⟨true, 0⟩ ∧ r1.cfg.btn3 = .identity := ⟨valid1, by decide⟩
/-- Every arc of the graph, the one out of Replay by button 0 with another P_JOY_FROM_REPLAY. -/
theorem test_witness_mode_moves :
    let j := { r1 with cfg := { Config.ex1 with joyFromReplay := .scripted }, mode := .replay }
    let moves := fun (k : BitVec 2) (s : State) => decide (s.cfg.btn3 = .identity) && decide (Instr.btnEdge k ≠ .reset) &&
      goesOn (exec (.btnEdge k) s) && decide ((after (.btnEdge k) s).mode ≠ s.mode)
    moves 0 r1 = true ∧ moves 1 r1 = true ∧ moves 0 { r1 with mode := .scripted } = true ∧
      moves 1 { r1 with mode := .scripted } = true ∧ moves 1 { r1 with mode := .replay } = true ∧ moves 0 j = true := by
  decide +kernel

/-- A queue that is full, and one with a single place left. -/
def full : State := { r1 with qCount := 1024, qWr := 1024 }
def last : State := { r1 with qCount := 1023, qWr := 1023 }
theorem test_witness_received : full.cfg.valid = true ∧ (full.qCount ≠ 1024 → full.qWr < 1024) ∧
    last.cfg.valid = true ∧ (last.qCount ≠ 1024 → last.qWr < 1024) := ⟨valid1, by decide, valid1, by decide⟩
theorem test_witness_classes : last.cfg.valid = true ∧ last.qCount ≠ 1024 ∧ last.qWr < 1024 ∧ inAlphabet 0x35 = false :=
  ⟨valid1, by decide⟩
theorem test_witness_full : full.cfg.valid = true ∧ full.qCount = 1024 ∧ receivedByte (.cmdInvalid 0x41) = some 0x41 ∧ Instr.wf 1 (.cmdInvalid 0x41) = true ∧
    receivedByte .cmdEnd = some 0x0D ∧ receivedByte (.serialRx 0) = some 0 := ⟨valid1, by decide⟩
/-- A queue of 1024 bytes; its first, its last but one and its last byte. -/
theorem test_witness_queue : r1.cfg.valid = true ∧ r1.qCount = 0 ∧ r1.qWr = 0 ∧
    (List.replicate 1024 (0x31 : Byte)).length = 1024 ∧
    ∀ k ∈ [0, 1022, 1023], (List.replicate 1024 (0x31 : Byte))[k]? = some 0x31 := by
  exact ⟨valid1, rfl, rfl, List.length_replicate, by decide +kernel⟩
/-- An entry that is not the last, the last entry, and an empty queue. -/
theorem test_witness_playback :
    let s := { r1 with qMem := [(0, 1), (1, 5)], qCount := 2, qWr := 2 }
    let u := { s with qRd := 1 }
    s.cfg.valid = true ∧ (s.qRd < s.qCount ∧ s.qRd + 1 ≠ s.qCount ∧ Memory.read s.qMem s.qRd = some (enc .right)) ∧
      (u.qRd < u.qCount ∧ u.qRd + 1 = u.qCount ∧ Memory.read u.qMem u.qRd = some (enc .invalid)) ∧ r1.qCount = 0 :=
  ⟨valid1, by decide⟩

theorem test_witness_aout : ({ r1 with aoDue := true } : State).aoDue = true ∧ r1.aoDue = false ∧ r1.cfg.valid = true :=
  ⟨rfl, rfl, valid1⟩
theorem test_witness_aout_integer : ∀ n : Int, n ∈ [-4095, -512, 0, 511, 4095] →
    let s := { r1 with aoDue := true, ax0 := { r1.ax0 with error := F64.ofInt n } }
    s.cfg.valid = true ∧ s.aoDue = true ∧ -4095 ≤ n ∧ n ≤ 4095 ∧ (s.ax s.sel).error = F64.ofInt n := by
  intro n h
  refine ⟨valid1, rfl, ?_, ?_, rfl⟩ <;> simp at h <;> omega
/-- A tick that plays the last live entry, one that plays nothing, and one whose counter is not at 0. -/
theorem test_witness_tick :
    let s := { r1 with qMem := [(0, 1)], qCount := 1, qWr := 1 }
    s.cfg.valid = true ∧ s.qPbCnt = 0 ∧ s.qCount ≠ 0 ∧ s.qRd < s.qCount ∧
      Memory.read s.qMem s.qRd = some (enc .right) ∧ r1.cfg.valid = true ∧ r1.qCount = 0 ∧
      ({ r1 with qPbCnt := 1 } : State).qPbCnt ≠ 0 := ⟨valid1, by decide, by decide, by decide, by decide, valid1, by decide⟩
/-- Each stop: a cursor at the count, an unwritten entry, a byte that is no code, a cursor past the storage, no gates. -/
theorem test_witness_stops :
    let a := { r1 with qCount := 1, qRd := 1 }
    let b := { r1 with qCount := 1 }
    let c := { r1 with qCount := 1, qMem := [(0, 6)] }
    let d := { r1 with qCount := 1023, qWr := 1024 }
    let e := { r1 with gates := [] }
    (a.qCount ≠ 0 ∧ a.qCount ≤ a.qRd) ∧ (b.qCount ≠ 0 ∧ Memory.read b.qMem b.qRd = none) ∧
      (c.qRd < c.qCount ∧ Memory.read c.qMem c.qRd = some 6 ∧ 5 < (6 : Byte).toNat) ∧
      (d.qCount ≠ 1024 ∧ 1024 ≤ d.qWr) ∧ (e.gates.length ≤ e.cfg.gateOf.of 0 ∧ e.gates.length ≤ (0 : BitVec 2).toNat) ∧
      inAlphabet 0x30 = true ∧ r1.cfg.valid = true :=
  ⟨by decide, by decide, by decide, by decide, by decide, by decide, valid1⟩

/-- For the statements about any operation that gives a next state, and any step. -/
theorem test_witness_any_operation : r1.cfg.btn3 = .identity ∧ exec .tick r1 = .next (after .tick r1) ∧
    exec (.serialRx 0x31) r1 = .next (after (.serialRx 0x31) r1) ∧ (8 : Nat) ∉ writes r1.cfg .tick ∧
    receivedByte .tick = none ∧ (1 : Nat) ≠ r1.qWr ∧ Instr.tick ≠ .reset :=
  ⟨rfl, next_of_goesOn (by decide +kernel), next_of_goesOn (by decide +kernel), by decide, rfl, by decide, by decide⟩
/-- The step of a state that meets the invariants, for the statements about a step. -/
theorem test_witness_step : Inv { r1 with env := [.event 1] } ∧ IsRun { r1 with env := [.event 1] } ∧
    goesOn (step { r1 with env := [.event 1] }) = true := ⟨inv_witness, isRun_witness, by decide +kernel⟩
theorem test_witness_reset_meets : Config.ex1.valid = true ∧ Config.ex1.btn3 = .identity ∧ Config.ex2.valid = true ∧
    Config.ex2.btn3 = .identity := ⟨valid1, rfl, valid2, rfl⟩
theorem test_witness_event_enabled : Inv { r1 with env := [.event 1] } ∧ Instr.isMicro (.btnEdge 3) = false ∧
    Instr.wf 1 (.btnEdge 3) = true := ⟨inv_witness, rfl, rfl⟩
/-- Two different states that differ in a dead entry. -/
theorem test_witness_dead : QueueInv r1 ∧ r1.cfg.btn3 = .identity ∧ SameButDead r1 { r1 with qMem := [(5, 7)] } ∧
    r1 ≠ { r1 with qMem := [(5, 7)] } :=
  ⟨⟨by decide, rfl, by decide, fun _ => rfl⟩, rfl, ⟨rfl, fun i hi => absurd hi (Nat.not_lt_zero i)⟩, by decide⟩

end Sys2Proof.Tests
end

section
/-! PROOFS. Scope (00_scope.md): every operation runs under a valid configuration that nothing writes (R8, R9), a step
runs what it decodes (R16), and the floating primitives are the correctly rounded ones (R12).

A rounding gives the magnitude of a result and the sign is put on afterwards, so the statements on signed words reduce
to statements on naturals through `signed`. -/

namespace Sys2Proof.F64

/-! ### Signed naturals -/

/-- A natural with a sign, as `scaled` and `withSign` read the sign bit of a word. -/
def signed (neg : Bool) (n : Nat) : Int := if neg then -(n : Int) else n

theorem scaled_eq_signed (x : F64) : x.scaled = signed x.isNeg x.scaledAbs := rfl

theorem withSign_eq_signed (x : F64) (n : Nat) : withSign x n = signed x.isNeg n := rfl

@[simp] theorem signed_false (n : Nat) : signed false n = n := rfl

@[simp] theorem signed_true (n : Nat) : signed true n = -(n : Int) := rfl

@[simp] theorem abs_signed (neg : Bool) (n : Nat) : |signed neg n| = n := by cases neg <;> simp

theorem signed_mul_natCast (neg : Bool) (a d : Nat) : signed neg a * d = signed neg (a * d) := by cases neg <;> simp

theorem signed_mul_signed (neg neg' : Bool) (a b : Nat) :
    signed neg a * signed neg' b = signed (neg != neg') (a * b) := by
  cases neg <;> cases neg' <;> simp

theorem abs_signed_sub_signed (neg : Bool) (a b : Nat) : |signed neg a - signed neg b| = |(a : Int) - b| := by
  cases neg
  · rfl
  · rw [signed_true, signed_true, neg_sub_neg, abs_sub_comm]

theorem abs_signed_not_sub_signed (neg : Bool) (a b : Nat) : |signed (!neg) a - signed neg b| = a + b := by
  cases neg
  · rw [Bool.not_false, signed_true, signed_false, ← neg_add', abs_neg, abs_of_nonneg (by positivity)]
  · rw [Bool.not_true, signed_true, signed_false, sub_neg_eq_add, abs_of_nonneg (by positivity)]

theorem signed_natAbs {neg : Bool} {e : Int} (h : e ≠ 0 → neg = decide (e < 0)) : signed neg e.natAbs = e := by
  by_cases h0 : e = 0
  · subst h0; cases neg <;> rfl
  · rw [h h0]
    by_cases hneg : e < 0
    · rw [decide_eq_true hneg, signed_true]; omega
    · rw [decide_eq_false hneg, signed_false]; omega

theorem pack_scaled (neg : Bool) {m : Nat} (h : m < 2 ^ 63) : (pack neg m).scaled = signed neg (magValue m) := by
  rw [scaled_eq_signed, pack_isNeg neg h, pack_scaledAbs neg h]

/-! ### Ties of a rounding -/

/-- A second natural as near as the rounded quotient makes the quotient a tie, so the rounded one is even. -/
theorem divNearestEven_even_of_equidistant {n d z : Nat} (hd : 0 < d) (hz : z ≠ divNearestEven n d)
    (h : |(divNearestEven n d : Int) * d - n| = |(z : Int) * d - n|) : divNearestEven n d % 2 = 0 := by
  have hgap : (d : Int) ≤ 2 * |(divNearestEven n d : Int) * d - n| := by
    have hone : 1 ≤ |(z : Int) - divNearestEven n d| := Int.one_le_abs (sub_ne_zero.mpr (by exact_mod_cast hz))
    calc (d : Int) ≤ |(z : Int) - divNearestEven n d| * d := le_mul_of_one_le_left (by positivity) hone
      _ = |(z : Int) * d - divNearestEven n d * d| := by rw [← sub_mul, abs_mul, Nat.abs_cast]
      _ ≤ |(z : Int) * d - n| + |(n : Int) - divNearestEven n d * d| := abs_sub_le _ _ _
      _ = 2 * |(divNearestEven n d : Int) * d - n| := by rw [← h, abs_sub_comm (n : Int), two_mul]
  by_cases htie : 2 * (n % d) = d
  · exact divNearestEven_tie htie
  · -- off a tie the rounded quotient is nearer than half the divisor
    exfalso
    have hr := Nat.mod_lt n hd
    have hn : (n : Int) = n / d * d + (n % d : Nat) := by
      rw [mul_comm]; exact_mod_cast (Nat.div_add_mod n d).symm
    have hlt : 2 * |(divNearestEven n d : Int) * d - n| < d := by
      unfold divNearestEven
      split
      · rw [show ((n / d : Nat) : Int) * d - n = -((n % d : Nat) : Int) by push_cast at hn ⊢; linarith, abs_neg,
          Nat.abs_cast]
        omega
      · rw [show ((n / d + 1 : Nat) : Int) * d - n = d - (n % d : Nat) by push_cast at hn ⊢; linarith,
          abs_of_nonneg (by omega)]
        omega
    exact absurd hgap (not_le.mpr hlt)

theorem roundMag_parity (n d : Nat) : roundMag n d % 2 = divNearestEven n (d * 2 ^ lastPlace (n / d)) % 2 := by
  rw [roundMag]; omega

/-- TIES TO EVEN: when another magnitude is as near as the rounded one, the rounded one is even. -/
theorem roundMag_even_of_equidistant {n d m : Nat} (hd : 0 < d) (hm : m ≠ roundMag n d)
    (h : |(magValue (roundMag n d) : Int) * d - n| = |(magValue m : Int) * d - n|) : roundMag n d % 2 = 0 := by
  have hne : magValue m ≠ magValue (roundMag n d) := magValue_strictMono.injective.ne hm
  rw [roundMag_parity]
  by_cases hv : lastPlace (n / d) = 0 ∨ 2 ^ (52 + lastPlace (n / d)) ≤ magValue m
  · -- `m` is a whole number of last places, so the tie is one of the rounded quotient
    obtain ⟨z, hz⟩ : 2 ^ lastPlace (n / d) ∣ magValue m := hv.elim (fun h0 => by simp [h0]) magValue_dvd
    rw [magValue_roundMag, hz] at h hne
    refine divNearestEven_even_of_equidistant (z := z) (by positivity) (fun hc => hne (by rw [hc, mul_comm])) ?_
    push_cast at h ⊢
    rwa [show ∀ a : Int, a * (d * 2 ^ lastPlace (n / d)) = a * 2 ^ lastPlace (n / d) * d from fun a => by ring,
      show (z : Int) * (d * 2 ^ lastPlace (n / d)) = 2 ^ lastPlace (n / d) * z * d by ring]
  · -- below the significands of this place, `m` is farther away than the least of them
    exfalso
    push Not at hv
    obtain ⟨h0, hlt⟩ := hv
    obtain ⟨p, hp⟩ := exists_magValue_two_pow (52 + lastPlace (n / d))
    have hnear := roundMag_nearest n hd p
    have hle : magValue p * d ≤ n := hp ▸ (Nat.le_div_iff_mul_le hd).mp (le_of_lastPlace_pos h0)
    have hfar : magValue m * d < magValue p * d := Nat.mul_lt_mul_of_pos_right (hp ▸ hlt) hd
    rw [h] at hnear
    zify at hle hfar
    rw [abs_of_nonpos (by linarith), abs_of_nonpos (by linarith)] at hnear
    linarith

/-! ### Where a rounding is finite -/

/-- The largest finite magnitude lies one last place, `2^2045` units, below that of an infinity. -/
theorem magValue_maxFinite : magValue (infMag - 1) + 2 * 2 ^ 2044 = 2 ^ 2098 := by decide +kernel

/-- Half a last place below `2^2098` units, a rounding stays finite. -/
theorem roundMag_lt_infMag {n d : Nat} (hd : 0 < d) (h : (n : Int) < (2 ^ 2098 - 2 ^ 2044) * d) :
    roundMag n d < infMag := by
  by_contra hc
  have hnear := roundMag_nearest n hd (infMag - 1)
  have hbig : 2 ^ 2098 * d ≤ magValue (roundMag n d) * d :=
    Nat.mul_le_mul_right d (not_lt.mp fun hl => hc ((lt_infMag_iff _).mpr hl))
  have hmax : magValue (infMag - 1) * d + 2 * (2 ^ 2044 * d) = 2 ^ 2098 * d := by
    rw [← magValue_maxFinite, add_mul, mul_assoc]
  rw [sub_mul] at h
  have hhalf : (0 : Int) < 2 ^ 2044 * d := by positivity
  zify at hbig hmax
  generalize (2 : Int) ^ 2098 * d = top at *
  generalize (2 : Int) ^ 2044 * d = half at *
  have hleft := le_abs_self ((magValue (roundMag n d) : Int) * d - n)
  rcases abs_cases ((magValue (infMag - 1) : Int) * d - n) with ⟨habs, -⟩ | ⟨habs, -⟩ <;> rw [habs] at hnear <;>
    linarith

/-! ### The rounded word among the finite words -/

/-- Any word is at least as far from a value of sign `neg` as some magnitude is in absolute value, and only a word of
that magnitude and sign is as near. -/
theorem exists_mag_dist_le (z : F64) (neg : Bool) (n d : Nat) :
    ∃ m, |(magValue m : Int) * d - n| ≤ |z.scaled * d - signed neg n| ∧
      (0 < d → |(magValue m : Int) * d - n| = |z.scaled * d - signed neg n| → z.scaled = signed neg (magValue m)) := by
  have hz : z.scaled * d = signed z.isNeg (z.scaledAbs * d) := by rw [scaled_eq_signed, signed_mul_natCast]
  by_cases hs : z.isNeg = neg
  · -- of the same sign: the magnitude of the word itself
    subst hs
    refine ⟨z.mag, ?_, fun _ _ => rfl⟩
    rw [hz, abs_signed_sub_signed, Nat.cast_mul]; exact le_rfl
  · -- of the other sign: zero lies between
    have hdist : |z.scaled * d - signed neg n| = (z.scaledAbs * d : Nat) + n := by
      rw [hz, Bool.eq_not.mpr hs, abs_signed_not_sub_signed]
    have hzero : |((magValue 0 : Nat) : Int) * d - n| = n := by
      rw [magValue_small (by norm_num)]; simp
    refine ⟨0, by rw [hdist, hzero]; omega, fun hd heq => ?_⟩
    rw [hdist, hzero] at heq
    have habs : z.scaledAbs = 0 := by
      have hmul : z.scaledAbs * d = 0 := by omega
      exact (Nat.mul_eq_zero.mp hmul).resolve_right hd.ne'
    rw [scaled_eq_signed, habs, magValue_small (by norm_num)]
    cases z.isNeg <;> cases neg <;> rfl

/-- CORRECT ROUNDING OF ONE OPERATION: the word of sign `neg` that `n / d` units round to is a nearest one, ties to
even, below the bound where binary64 has a nearest finite word. -/
theorem roundTo_nearestEven (op : Config.FloatOp) (x y : F64) {neg : Bool} {n d : Nat} (hd : 0 < d)
    (h : (n : Int) < (2 ^ 2098 - 2 ^ 2044) * d) : Machine.NearestEven (roundTo op x y neg n d) (signed neg n) d := by
  have hlt := roundMag_lt_infMag hd h
  have h63 := hlt.trans infMag_lt
  have hdist : |(pack neg (roundMag n d)).scaled * d - signed neg n| = |(magValue (roundMag n d) : Int) * d - n| := by
    rw [pack_scaled neg h63, signed_mul_natCast, abs_signed_sub_signed, Nat.cast_mul]
  rw [roundTo_of_lt hlt]
  refine ⟨pack_isFinite neg hlt, fun z _ => ?_, fun z _ hne heq => ?_⟩
  · obtain ⟨m, hm, -⟩ := exists_mag_dist_le z neg n d
    rw [hdist]
    exact (roundMag_nearest n hd m).trans hm
  · obtain ⟨m, hm, hsame⟩ := exists_mag_dist_le z neg n d
    rw [hdist] at heq
    have hnear := roundMag_nearest n hd m
    have hz := hsame hd (le_antisymm hm (heq ▸ hnear))
    rw [pack_mag neg h63]
    refine roundMag_even_of_equidistant (m := m) hd ?_ (le_antisymm hnear (heq ▸ hm))
    rintro rfl
    exact hne (by rw [hz, pack_scaled neg h63])

/-! ### Sums -/

theorem sum_nearestEven (op : Config.FloatOp) (u v x y : F64) (h : |x.scaled + y.scaled| < 2 ^ 2098 - 2 ^ 2044) :
    Machine.NearestEven (sum op u v x y) (x.scaled + y.scaled) 1 := by
  have hr := roundTo_nearestEven op u v (neg := sumNeg x y) (n := (x.scaled + y.scaled).natAbs) one_pos
    (by rwa [Int.natCast_natAbs, Nat.cast_one, mul_one])
  rwa [signed_natAbs fun h0 => by rw [sumNeg, if_neg h0]] at hr

theorem fadd_eq_sum {x y : F64} (hx : x.isFinite = true) (hy : y.isFinite = true) : fadd x y = sum .add x y x y := by
  simp [fadd, hx, hy]

theorem fsub_eq_sum {x y : F64} (hx : x.isFinite = true) (hy : y.isFinite = true) :
    fsub x y = sum .sub x y x (fneg y) := by
  simp [fsub, hx, hy]

/-! ### Products and quotients -/

theorem fmul_eq_roundTo {x y : F64} (hx : x.isFinite = true) (hy : y.isFinite = true) :
    fmul x y = roundTo .mul x y (x.isNeg != y.isNeg) (x.scaledAbs * y.scaledAbs) one1074 := by
  simp [fmul, hx, hy]

theorem fdiv_eq_roundTo {x y : F64} (hx : x.isFinite = true) (hy : y.isFinite = true) (h0 : y.scaledAbs ≠ 0) :
    fdiv x y = roundTo .div x y (x.isNeg != y.isNeg) (x.scaledAbs * one1074) y.scaledAbs := by
  simp [fdiv, hx, hy, h0]

theorem isNeg_of_scaled_pos {y : F64} (h : 0 < y.scaled) : y.isNeg = false := by
  rw [scaled_eq_signed] at h
  by_contra hn
  rw [Bool.eq_true_of_not_eq_false hn, signed_true] at h
  omega

theorem scaled_of_not_isNeg {y : F64} (h : y.isNeg = false) : y.scaled = y.scaledAbs := by
  rw [scaled_eq_signed, h, signed_false]

/-! ### Rounding to an integer -/

theorem fround_of_isFinite {x : F64} (h : x.isFinite = true) :
    fround x = signed x.isNeg ((2 * x.scaledAbs + one1074) / (2 * one1074)) := by
  rw [fround, if_pos h, withSign_eq_signed]

theorem ftrunc_of_isFinite {x : F64} (h : x.isFinite = true) : ftrunc x = signed x.isNeg (x.scaledAbs / one1074) := by
  rw [ftrunc, if_pos h, withSign_eq_signed]

/-- Adding half the divisor before dividing gives a nearest multiple, and of two the upper one. -/
theorem div_add_half_nearest (n : Nat) {u : Nat} (hu : 0 < u) :
    2 * |(((2 * n + u) / (2 * u) * u : Nat) : Int) - n| ≤ u ∧
      (2 * |(((2 * n + u) / (2 * u) * u : Nat) : Int) - n| = u → n < (2 * n + u) / (2 * u) * u) := by
  have hdiv := Nat.div_add_mod (2 * n + u) (2 * u)
  have hmod := Nat.mod_lt (2 * n + u) (Nat.mul_pos two_pos hu)
  rw [show 2 * u * ((2 * n + u) / (2 * u)) = 2 * ((2 * n + u) / (2 * u) * u) by ring] at hdiv
  generalize (2 * n + u) / (2 * u) * u = r at *
  -- `2 r` lies in `(2 n - u, 2 n + u]`
  rcases abs_cases ((r : Int) - n) with ⟨habs, -⟩ | ⟨habs, -⟩ <;> rw [habs] <;> omega

end Sys2Proof.F64

namespace Sys2Proof.Machine

open F64

/-- Settles O12: a sum, and the sum with the negated word, is one rounding of the exact sum. -/
theorem sumsAreCorrectlyRounded : Obligations.SumsAreCorrectlyRounded := by
  intro x y hx hy
  refine ⟨fun h => ?_, fun h => ?_⟩
  · rw [fadd_eq_sum hx hy]
    exact sum_nearestEven .add x y x y h
  · rw [fsub_eq_sum hx hy, sub_eq_add_neg, ← fneg_scaled]
    exact sum_nearestEven .sub x y x (fneg y) (by rwa [fneg_scaled, ← sub_eq_add_neg])

/-- Settles O13: a product is one rounding of the exact product of the magnitudes, the signs combined. -/
theorem productsAreCorrectlyRounded : Obligations.ProductsAreCorrectlyRounded := by
  intro x y hx hy h
  have hprod : x.scaled * y.scaled = signed (x.isNeg != y.isNeg) (x.scaledAbs * y.scaledAbs) :=
    signed_mul_signed _ _ _ _
  rw [hprod, abs_signed] at h
  rw [hprod, fmul_eq_roundTo hx hy]
  exact roundTo_nearestEven .mul x y one1074_pos h

/-- Settles O14: a quotient is one rounding of the exact quotient of the magnitudes, of the dividend's sign. -/
theorem quotientsAreCorrectlyRounded : Obligations.QuotientsAreCorrectlyRounded := by
  intro x y hx hy hpos h
  have hsign := isNeg_of_scaled_pos hpos
  have habs : 0 < y.scaledAbs := by rw [scaled_of_not_isNeg hsign] at hpos; exact_mod_cast hpos
  have hquot : x.scaled * one1074 = signed (x.isNeg != y.isNeg) (x.scaledAbs * one1074) := by
    rw [scaled_eq_signed, signed_mul_natCast, hsign, Bool.bne_false]
  rw [hquot, abs_signed, scaled_of_not_isNeg hsign] at h
  rw [hquot, fdiv_eq_roundTo hx hy habs.ne']
  exact roundTo_nearestEven .div x y habs h

/-- Settles O15: both integers carry the sign of the word, so each clause is one about the division of its magnitude. -/
theorem roundAndTruncateAreTheIntegersTheySay : Obligations.RoundAndTruncateAreTheIntegersTheySay := by
  intro x hx
  obtain ⟨hnear, htie⟩ := div_add_half_nearest x.scaledAbs one1074_pos
  have hbelow := Nat.div_mul_le_self x.scaledAbs one1074
  have habove := Nat.lt_div_mul_add (a := x.scaledAbs) one1074_pos
  rw [fround_of_isFinite hx, ftrunc_of_isFinite hx, signed_mul_natCast, signed_mul_natCast, scaled_eq_signed,
    abs_signed_sub_signed, abs_signed, abs_signed, abs_signed, signed_mul_signed, bne_self_eq_false, signed_false]
  exact ⟨hnear, fun h => by exact_mod_cast htie h, by exact_mod_cast hbelow, by exact_mod_cast habove, by positivity⟩

/-- Settles O57, from the exactness of `ofInt`. -/
theorem integersConvertExactly : Obligations.IntegersConvertExactly := by
  intro n hn
  have habs : n.natAbs < 2 ^ 53 := by rw [Int.abs_eq_natAbs] at hn; exact_mod_cast hn
  obtain ⟨hfin, hneg, -⟩ := ofInt_exact habs
  exact ⟨hfin, ofInt_scaled habs, by rw [hneg, decide_eq_true_iff]⟩

/-! ### The step and the configuration -/

theorem step_of_decode {s : State} {x : Stimulus} {rest : List Stimulus} {i : Instr} (henv : s.env = x :: rest)
    (hdec : decode s.cfg.nGates x = .ok i) : step s = exec i { s with env := rest } := by
  simp only [step, fetch_cons s x henv, hdec]

/-- A step that gives a next state waited, or ran an operation with its stimulus taken. -/
theorem step_cases {s t : State} (h : step s = .next t) :
    (s.env = [] ∧ t = s) ∨ ∃ x rest i, s.env = x :: rest ∧ decode s.cfg.nGates x = .ok i ∧
      exec i { s with env := rest } = .next t := by
  cases henv : s.env with
  | nil =>
    simp only [step, fetch_nil s henv] at h
    cases h
    exact .inl ⟨rfl, rfl⟩
  | cons x rest =>
    cases hdec : decode s.cfg.nGates x with
    | error e => simp only [step, fetch_cons s x henv, hdec] at h; cases h
    | ok i =>
      rw [step_of_decode henv hdec] at h
      exact .inr ⟨x, rest, i, rfl, hdec, h⟩

theorem exec_serial_cfg {i : Instr} {b : Byte} {s t : State} (hb : receivedByte i = some b) (h : exec i s = .next t) :
    t.cfg = s.cfg := by
  obtain ⟨-, rfl⟩ | ⟨-, -, rfl⟩ := exec_serial_inv hb h <;> rfl

theorem exec_tick_cfg {s t : State} (h : exec .tick s = .next t) : t.cfg = s.cfg := by
  obtain ⟨u, hu, rfl⟩ := exec_tick_inv h
  obtain rfl | ⟨c, -, -, rfl⟩ := tickPlayed_cases hu
  · rfl
  · exact played_cfg c s

theorem playback_cfg {s t : State} (h : playback s = .ok t) : t.cfg = s.cfg := by
  obtain ⟨-, rfl⟩ | ⟨-, c, -, -, rfl⟩ := playback_cases h
  · rfl
  · exact played_cfg c s

theorem execBtnEdge_cfg {k : BitVec 2} {s t : State} (h : execBtnEdge k s = .next t) : t.cfg = s.cfg := by
  obtain ⟨-, g, -, ⟨-, rfl⟩ | ⟨-, rfl⟩⟩ := execBtnEdge_cases h
  · rfl
  · exact buttonAction_cfg k s

/-- R9, operation by operation. -/
theorem exec_cfg {i : Instr} {s t : State} (h : exec i s = .next t) : t.cfg = s.cfg := by
  cases i with
  | reset => rw [exec_reset_inv h]; rfl
  | tick => exact exec_tick_cfg h
  | btnEdge k => exact execBtnEdge_cfg h
  | sample a b c d => obtain ⟨v, x, y, -, -, -, rfl⟩ := exec_sample_inv h; rfl
  | pidStep a => obtain ⟨r, -, rfl⟩ := exec_pidStep_inv h; exact State.setAx_cfg s r a
  | pwmStep a en => rw [exec_pwmStep_inv h, State.setPin_cfg]
  | aoutStep => obtain ⟨-, v, -, rfl⟩ | ⟨-, rfl⟩ := exec_aoutStep_inv h <;> rfl
  | gateTimeout g => obtain ⟨x, -, rfl⟩ := exec_gateTimeout_inv h; rfl
  | playbackStep => exact playback_cfg (exec_playbackStep_inv h)
  | serialRx | cmdNomove | cmdRight | cmdLeft | cmdUp | cmdDown | cmdEnd | cmdInvalid => exact exec_serial_cfg rfl h

/-- Settles O45: a step is an operation on a state of the same configuration, or the waiting step. -/
theorem noOperationWritesAParameter : Obligations.NoOperationWritesAParameter := by
  refine ⟨fun i s t h => exec_cfg h, fun s t h => ?_⟩
  obtain ⟨-, rfl⟩ | ⟨x, rest, i, -, -, hexec⟩ := step_cases h
  · rfl
  · exact (exec_cfg hexec :)

/-- Settles O5. -/
theorem stepRunsTheDecodedInstruction : Obligations.StepRunsTheDecodedInstruction :=
  fun _ _ _ _ henv hdec => step_of_decode henv hdec

/-- Settles O9: the meaning of every operation is guarded by `configured`. -/
theorem invalidConfigurationIsRefused : Obligations.InvalidConfigurationIsRefused := by
  intro i s h
  cases i <;> exact configured_of_invalid h _

end Sys2Proof.Machine
end

section
/-! PROOFS. The state (10_state.md sections 11 and 12): the invariants R52 to R59 under every operation, after RESET and
along a run, and what each operation leaves unchanged (R51, R63).

Only five things happen to an axis: nothing, a new phase, a new reading, a PID update, or RESET. Of these the PID update
alone computes, and its words are bounded one after another from the bounds of U1. The other invariants are kept by the
shared operations, each on its own. A register number reads one field of the state, so an operation leaves it alone when
it leaves that field alone; `RegisterAgrees` says so field by field, and each operation answers only for the fields it
writes. -/

namespace Sys2Proof.Machine

open F64

/-! ### Two shared operations as updates -/

theorem played_eq_update (c : Command) (s : State) : ∃ wr rd count,
    played c s = { s with syn := synth s.cfg c, qWr := wr, qRd := rd, qCount := count } := by
  unfold played
  split <;> exact ⟨_, _, _, rfl⟩

/-- With BTN3_ACTION the identity an action writes the mode and the selector at most. -/
theorem buttonAction_eq_update {s : State} (k : BitVec 2) (hb : s.cfg.btn3 = .identity) : ∃ mode sel,
    buttonAction k s = { s with mode := mode, sel := sel } := by
  obtain ⟨-, h⟩ | ⟨-, h⟩ | ⟨-, h⟩ | ⟨-, h⟩ := buttonAction_cases k hb <;> exact ⟨_, _, h⟩

/-! ### What an operation does to an axis -/

theorem playback_ax {s t : State} (h : playback s = .ok t) (a : AxisId) : t.ax a = s.ax a := by
  obtain ⟨-, rfl⟩ | ⟨-, c, -, -, rfl⟩ := playback_cases h
  · rfl
  · cases a <;> simp

theorem exec_serial_ax {i : Instr} {b : Byte} {s t : State} (hb : receivedByte i = some b) (h : exec i s = .next t)
    (a : AxisId) : t.ax a = s.ax a := by
  obtain ⟨-, rfl⟩ | ⟨-, -, rfl⟩ := exec_serial_inv hb h <;> cases a <;> rfl

theorem execBtnEdge_ax {k : BitVec 2} {s t : State} (hb : s.cfg.btn3 = .identity) (h : execBtnEdge k s = .next t)
    (a : AxisId) : t.ax a = s.ax a := by
  obtain ⟨-, g, -, ⟨-, rfl⟩ | ⟨-, rfl⟩⟩ := execBtnEdge_cases h
  · rfl
  · obtain ⟨mode, sel, heq⟩ := buttonAction_eq_update k hb
    rw [heq]
    cases a <;> rfl

theorem exec_tick_ax {s t : State} (h : exec .tick s = .next t) (a : AxisId) :
    t.ax a = { s.ax a with pwmPhase := incMod (s.ax a).pwmPhase s.cfg.pwmCycleLen } := by
  obtain ⟨u, -, rfl⟩ := exec_tick_inv h
  cases a <;> rfl

theorem exec_sample_ax {c0 c1 c2 c3 : BitVec 12} {s t : State} (h : exec (.sample c0 c1 c2 c3) s = .next t)
    (a : AxisId) : ∃ x y, t.ax a = { s.ax a with measured := channelDiff x y } := by
  obtain ⟨v, x, y, -, rfl, rfl, rfl⟩ := exec_sample_inv h
  cases a
  · exact ⟨v.c0, v.c1, rfl⟩
  · exact ⟨v.c2, v.c3, rfl⟩

/-- An operation leaves the registers of an axis alone, steps the phase, takes a reading, updates them (a PID step of
this axis) or resets them. -/
theorem exec_ax_cases {i : Instr} {s t : State} (a : AxisId) (hb : s.cfg.btn3 = .identity)
    (h : exec i s = .next t) :
    t.ax a = s.ax a ∨ (∃ p, t.ax a = { s.ax a with pwmPhase := p }) ∨
      (∃ x y, t.ax a = { s.ax a with measured := channelDiff x y }) ∨
      (i = .pidStep a ∧ t.ax a = pidUpdate s.cfg (s.ax a)) ∨ (i = .reset ∧ t.ax a = AxisRegs.reset) := by
  cases i with
  | reset =>
    rw [exec_reset_inv h]
    exact .inr (.inr (.inr (.inr ⟨rfl, by cases a <;> rfl⟩)))
  | tick => exact .inr (.inl ⟨_, exec_tick_ax h a⟩)
  | btnEdge k => exact .inl (execBtnEdge_ax hb h a)
  | sample c0 c1 c2 c3 => exact .inr (.inr (.inl (exec_sample_ax h a)))
  | pidStep b =>
    obtain ⟨r, rfl, rfl⟩ := exec_pidStep_inv h
    by_cases hab : a = b
    · subst hab
      exact .inr (.inr (.inr (.inl ⟨rfl, State.ax_setAx_same s _ a⟩)))
    · exact .inl (State.ax_setAx_other s _ b a hab)
  | pwmStep b en => rw [exec_pwmStep_inv h]; exact .inl (State.ax_setPin s _ b a)
  | aoutStep => obtain ⟨-, v, -, rfl⟩ | ⟨-, rfl⟩ := exec_aoutStep_inv h <;> exact .inl (by cases a <;> rfl)
  | gateTimeout g => obtain ⟨x, -, rfl⟩ := exec_gateTimeout_inv h; exact .inl (by cases a <;> rfl)
  | playbackStep => exact .inl (playback_ax (exec_playbackStep_inv h) a)
  | serialRx | cmdNomove | cmdRight | cmdLeft | cmdUp | cmdDown | cmdEnd | cmdInvalid =>
    exact .inl (exec_serial_ax rfl h a)

/-! ### Readings and errors (R58) -/

theorem isReading_zero : IsReading zero := ⟨0, by norm_num, by norm_num, ofInt_zero.symm⟩

theorem isReading_channelDiff (x y : BitVec 12) : IsReading (channelDiff x y) :=
  ⟨x.toNat - y.toNat, by have := y.isLt; omega, by have := x.isLt; omega, rfl⟩

theorem IsReading.below {x : F64} (h : IsReading x) : Below x 1086 := by
  obtain ⟨n, hlo, hhi, rfl⟩ := h
  obtain ⟨hfin, -, habs⟩ := ofInt_exact (n := n) (by omega)
  refine ⟨hfin, ?_⟩
  rw [habs, one1074_eq, show 1086 = 12 + 1074 from rfl, ← two_pow_add]
  exact Nat.mul_le_mul_right _ (by omega)

/-- With the setpoint at zero the error of a reading is the negated reading, exactly. -/
theorem fsub_zero_ofInt {n : Int} (hn : n.natAbs < 2 ^ 53) : fsub zero (ofInt n) = ofInt (-n) := by
  rw [fsub_eq_sum zero_isFinite (ofInt_exact hn).1]
  refine sum_ofInt (by rwa [Int.natAbs_neg]) ?_ fun _ => by rw [zero_isNeg, Bool.false_and]
  rw [zero_scaled, fneg_scaled, ofInt_scaled hn, zero_add, neg_mul]

theorem IsReading.fsub_zero {x : F64} (h : IsReading x) : IsReading (fsub zero x) := by
  obtain ⟨n, hlo, hhi, rfl⟩ := h
  exact ⟨-n, by omega, by omega, fsub_zero_ofInt (by omega)⟩

/-! ### The integral and its clamp (R52) -/

theorem windup_isFinite {c : Config} (h : c.valid = true) : (windup c).isFinite = true := (windup_below h).1.1

theorem windup_scaled_nonneg {c : Config} (h : c.valid = true) : 0 ≤ (windup c).scaled := by
  rw [scaled_of_not_isNeg (windup_below h).2]; positivity

theorem fle_iff {x y : F64} (hx : x.isFinite = true) (hy : y.isFinite = true) :
    fle x y = true ↔ x.scaled ≤ y.scaled := by
  simp [fle, isNaN_of_isFinite hx, isNaN_of_isFinite hy]

theorem flt_iff {x y : F64} (hx : x.isFinite = true) (hy : y.isFinite = true) :
    flt x y = true ↔ x.scaled < y.scaled := by
  simp [flt, isNaN_of_isFinite hx, isNaN_of_isFinite hy]

theorem clampIntegral_isFinite {w x : F64} (hw : w.isFinite = true) (hx : x.isFinite = true) :
    (clampIntegral w x).isFinite = true := by
  unfold clampIntegral
  split
  · exact hw
  · split
    · rwa [fneg_isFinite]
    · exact hx

/-- The clamp puts a finite word between the bounds, as values. -/
theorem clampIntegral_bounds {w x : F64} (hw : w.isFinite = true) (h0 : 0 ≤ w.scaled) (hx : x.isFinite = true) :
    -w.scaled ≤ (clampIntegral w x).scaled ∧ (clampIntegral w x).scaled ≤ w.scaled := by
  have hneg : (fneg w).isFinite = true := by rwa [fneg_isFinite]
  unfold clampIntegral fgt
  split
  · omega
  · rename_i hhi
    rw [flt_iff hw hx] at hhi
    split
    · rw [fneg_scaled]; omega
    · rename_i hlo
      rw [flt_iff hx hneg, fneg_scaled] at hlo
      omega

theorem fle_scaled {x y : F64} (h : fle x y = true) : x.scaled ≤ y.scaled := by
  simp only [fle, Bool.and_eq_true, decide_eq_true_eq] at h
  exact h.2

/-- R52 of a finite integral, as a statement on values. -/
theorem integralInv_iff {c : Config} {r : AxisRegs} (hv : c.valid = true) (hfin : r.integral.isFinite = true) :
    IntegralInv c r ↔ -(windup c).scaled ≤ r.integral.scaled ∧ r.integral.scaled ≤ (windup c).scaled := by
  have hw := windup_isFinite hv
  rw [IntegralInv, fle_iff (by rwa [fneg_isFinite]) hfin, fle_iff hfin hw, fneg_scaled]

/-- An integral within the limit has the bound of the limit, and so is finite. -/
theorem IntegralInv.below {c : Config} {r : AxisRegs} (hv : c.valid = true) (h : IntegralInv c r) :
    Below r.integral 1574 := by
  obtain ⟨hlo, hhi⟩ := h
  have hlo := fle_scaled hlo
  have hhi := fle_scaled hhi
  rw [fneg_scaled] at hlo
  have habs : r.integral.scaledAbs ≤ (windup c).scaledAbs := by
    rw [← scaled_natAbs, ← scaled_natAbs]
    omega
  have hbound : r.integral.scaledAbs ≤ 2 ^ 1574 := habs.trans (windup_below hv).1.2
  exact ⟨isFinite_of_scaledAbs (lt_of_le_of_lt hbound (two_pow_lt (by norm_num))), hbound⟩

/-! ### The words of a PID step, bounded in their order (R103, U1) -/

section Pid

variable {c : Config} {r : AxisRegs} (hv : c.valid = true) (h : AxisInv c r)
include hv h

omit hv in
theorem isReading_pidError : IsReading (pidError r) := by
  obtain ⟨hset, hmeas, -⟩ := h
  rw [pidError, hset]
  exact hmeas.fsub_zero

theorem pidAccumulated_below : Below (pidAccumulated c r) (1586 + 1) := by
  have ⟨_, _, _, _, hint, _⟩ := h
  have hdt := below_of_magHuge (Config.wordBounds hv).dtHigh
  have hstep : Below (fmul (pidError r) c.dt) 1586 :=
    fmul_below (isReading_pidError h).below hdt (by norm_num) (by norm_num)
  exact fadd_below ((hint.below hv).mono (by norm_num)) hstep (by norm_num)

/-- A PID step clamps what it accumulates, so R52 holds of it whatever the integral was. -/
theorem integralInv_pidUpdate : IntegralInv c (pidUpdate c r) := by
  have hw := windup_isFinite hv
  have hacc := (pidAccumulated_below hv h).1
  have hfin : (pidUpdate c r).integral.isFinite = true := by
    rw [pidUpdate_integral]; exact clampIntegral_isFinite hw hacc
  rw [integralInv_iff hv hfin, pidUpdate_integral]
  exact clampIntegral_bounds hw (windup_scaled_nonneg hv) hacc

theorem pidIntegral_below : Below (pidIntegral c r) 1574 :=
  pidUpdate_integral c r ▸ (integralInv_pidUpdate hv h).below hv

theorem pidDerivative_below : Below (pidDerivative c r) 1587 := by
  have ⟨_, _, _, hprev, _⟩ := h
  have hw := Config.wordBounds hv
  have hdiff : Below (fsub (pidError r) r.previousError) (1086 + 1) :=
    fsub_below (isReading_pidError h).below hprev.below (by norm_num)
  have hdt : 2 ^ 574 ≤ c.dt.scaledAbs := magValue_magTiny ▸ magValue_strictMono.monotone hw.dtLow
  exact fdiv_below hdiff (below_of_magHuge hw.dtHigh).1 hdt (by norm_num) (by norm_num)

theorem pidOutput_below : Below (pidOutput c r) (2087 + 1) := by
  have hw := Config.wordBounds hv
  have hp : Below (fmul c.kp (pidError r)) 2074 :=
    fmul_below (below_of_magHuge hw.kp) (isReading_pidError h).below (by norm_num) (by norm_num)
  have hi : Below (fmul c.ki (pidIntegral c r)) 2074 :=
    fmul_below (below_of_magHuge hw.ki) (pidIntegral_below hv h) (by norm_num) (by norm_num)
  have hd : Below (fmul c.kd (pidDerivative c r)) 2087 :=
    fmul_below (below_of_magHuge hw.kd) (pidDerivative_below hv h) (by norm_num) (by norm_num)
  exact fadd_below ((fadd_below hp hi (by norm_num)).mono (by norm_num)) hd (by norm_num)

omit h in
theorem throttleInv_pidUpdate : ThrottleInv c (pidUpdate c r) := by
  rw [ThrottleInv, pidUpdate_throttle]
  exact (throttleOf_bounds (Config.bounds hv).1 _).2

theorem axisInv_pidUpdate : AxisInv c (pidUpdate c r) := by
  have ⟨hset, hmeas, _⟩ := h
  have herr := isReading_pidError h
  refine ⟨?_, ?_, ?_, ?_, integralInv_pidUpdate hv h, ?_, ?_, throttleInv_pidUpdate hv⟩
  · rwa [pidUpdate_setpoint]
  · rwa [pidUpdate_measured]
  · rwa [pidUpdate_error]
  · rwa [pidUpdate_previousError]
  · rw [pidUpdate_derivative]; exact (pidDerivative_below hv h).1
  · rw [pidUpdate_output]; exact (pidOutput_below hv h).1

end Pid

/-! ### The axis invariants over every operation -/

theorem axisInv_reset {c : Config} (hv : c.valid = true) : AxisInv c AxisRegs.reset := by
  have h0 := windup_scaled_nonneg hv
  refine ⟨rfl, isReading_zero, isReading_zero, isReading_zero, ?_, zero_isFinite, zero_isFinite, Nat.zero_le _⟩
  rw [integralInv_iff hv zero_isFinite]
  change -(windup c).scaled ≤ zero.scaled ∧ zero.scaled ≤ (windup c).scaled
  rw [zero_scaled]
  omega

theorem AxisInv.withMeasured {c : Config} {r : AxisRegs} {x : F64} (h : AxisInv c r) (hx : IsReading x) :
    AxisInv c { r with measured := x } := by
  obtain ⟨hset, -, hrest⟩ := h
  exact ⟨hset, hx, hrest⟩

/-- R52, R53, R58 and R59 of an axis, kept by every operation. -/
theorem axisInv_exec {i : Instr} {s t : State} {a : AxisId} (hb : s.cfg.btn3 = .identity)
    (h : AxisInv s.cfg (s.ax a)) (he : exec i s = .next t) : AxisInv t.cfg (t.ax a) := by
  have hv := valid_of_exec he
  rw [exec_cfg he]
  obtain hax | ⟨p, hax⟩ | ⟨x, y, hax⟩ | ⟨-, hax⟩ | ⟨-, hax⟩ := exec_ax_cases a hb he <;> rw [hax]
  · exact h
  · exact h
  · exact h.withMeasured (isReading_channelDiff x y)
  · exact axisInv_pidUpdate hv h
  · exact axisInv_reset hv

theorem AxisInv.allFinite {c : Config} {r : AxisRegs} (hv : c.valid = true) (h : AxisInv c r) :
    r.allFinite = true := by
  obtain ⟨hset, hmeas, herr, hprev, hint, hder, hout, -⟩ := h
  simp only [AxisRegs.allFinite, hset, zero_isFinite, hmeas.below.1, herr.below.1, hprev.below.1, (hint.below hv).1,
    hder, hout, Bool.and_self]

/-- Settles O22: the axis invariants are kept, and they bound every word of an axis. -/
theorem registersStayFinite : Obligations.RegistersStayFinite := by
  intro i s t hb h0 h1 he
  have hv : t.cfg.valid = true := by rw [exec_cfg he]; exact valid_of_exec he
  exact ⟨(axisInv_exec (a := .axis0) hb h0 he).allFinite hv, (axisInv_exec (a := .axis1) hb h1 he).allFinite hv⟩

/-- Settles O21. -/
theorem integralStaysWithinTheWindupLimit : Obligations.IntegralStaysWithinTheWindupLimit := by
  intro i s t hb h0 h1 he
  obtain ⟨-, -, -, -, hint0, -⟩ := axisInv_exec (a := .axis0) hb h0 he
  obtain ⟨-, -, -, -, hint1, -⟩ := axisInv_exec (a := .axis1) hb h1 he
  exact ⟨hint0, hint1⟩

/-- A PID step leaves the throttle of its axis clamped from both sides (R107). -/
theorem exec_pidStep_throttle {s t : State} {a : AxisId} (he : exec (.pidStep a) s = .next t) :
    1 ≤ (t.ax a).throttle ∧ (t.ax a).throttle ≤ s.cfg.maxThrottle := by
  have hmax := (Config.bounds (valid_of_exec he)).1
  obtain ⟨r, rfl, rfl⟩ := exec_pidStep_inv he
  rw [State.ax_setAx_same, pidUpdate_throttle]
  exact throttleOf_bounds hmax _

/-- The throttle of an axis is written by its PID steps and by RESET only. -/
theorem exec_throttle_cases {i : Instr} {s t : State} (a : AxisId) (hb : s.cfg.btn3 = .identity)
    (he : exec i s = .next t) :
    (t.ax a).throttle = (s.ax a).throttle ∨ i = .pidStep a ∨ (i = .reset ∧ (t.ax a).throttle = 0) := by
  obtain hax | ⟨p, hax⟩ | ⟨x, y, hax⟩ | ⟨hi, -⟩ | ⟨hi, hax⟩ := exec_ax_cases a hb he
  · exact .inl (by rw [hax])
  · exact .inl (by rw [hax])
  · exact .inl (by rw [hax])
  · exact .inr (.inl hi)
  · exact .inr (.inr ⟨hi, by rw [hax]; rfl⟩)

/-- Settles O18: an operation keeps the throttle, clamps it (a PID step), or zeroes it (RESET). -/
theorem throttleStaysInItsRange : Obligations.ThrottleStaysInItsRange := by
  intro i s t a hb he
  rw [exec_cfg he]
  obtain heq | rfl | ⟨rfl, hzero⟩ := exec_throttle_cases a hb he
  · rw [heq]
    refine ⟨id, ?_, fun _ => id⟩
    rintro rfl
    exact heq ▸ exec_pidStep_throttle he
  · obtain ⟨hlo, hhi⟩ := exec_pidStep_throttle he
    exact ⟨fun _ => hhi, fun _ => ⟨hlo, hhi⟩, fun _ _ => hlo⟩
  · rw [hzero]
    exact ⟨fun _ => Nat.zero_le _, (nomatch ·), fun h => absurd rfl h⟩

/-! ### Phases, counters and gates (R54, R55) -/

theorem incMod_lt {x n : Nat} (h : 1 ≤ n) : incMod x n < n := Nat.mod_lt _ h

theorem gateInv_tick {c : Config} {g : Gate} (h : GateInv c g) : GateInv c g.tick := by
  rw [gate_tick_eq]
  split
  · exact h
  · rename_i hclosed
    obtain ⟨hopen, hle⟩ := h
    refine ⟨?_, (Nat.sub_le _ _).trans hle⟩
    simp only [decide_eq_true_eq]
    have : g.dbCnt ≠ 0 := hopen.not.mp hclosed
    omega

theorem gateInv_close {c : Config} (hv : c.valid = true) (g : Gate) : GateInv c (g.close c.debounceTicks) := by
  obtain ⟨-, -, hdb, -⟩ := Config.bounds hv
  refine ⟨?_, le_refl _⟩
  simp only [Gate.close, Bool.false_eq_true, false_iff]
  omega

theorem gateInv_reset (c : Config) : GateInv c Gate.reset := ⟨by decide, Nat.zero_le _⟩

theorem gatesInv_map_tick {s : State} (h : GatesInv s) : GatesInv { s with gates := s.gates.map Gate.tick } := by
  obtain ⟨hlen, hall⟩ := h
  refine ⟨(List.length_map _).trans hlen, fun g hg => ?_⟩
  obtain ⟨g', hg', rfl⟩ := List.mem_map.mp hg
  exact gateInv_tick (hall g' hg')

theorem gatesInv_set {s : State} {n : Nat} {g : Gate} (h : GatesInv s) (hg : GateInv s.cfg g) :
    GatesInv { s with gates := s.gates.set n g } := by
  obtain ⟨hlen, hall⟩ := h
  refine ⟨List.length_set.trans hlen, fun g' hg' => ?_⟩
  obtain hold | rfl := List.mem_or_eq_of_mem_set hg'
  · exact hall g' hold
  · exact hg

/-! ### The queue, its storage and the synthetic values (R56, R57) -/

theorem queueInv_appended {s : State} (c : Command) (h : QueueInv s) (hfull : s.qCount ≠ queueCap) :
    QueueInv (appended c s) := by
  obtain ⟨hcap, hwr, hrd, -⟩ := h
  refine ⟨Nat.lt_of_le_of_ne hcap hfull, congrArg (· + 1) hwr, fun _ => ?_, fun h0 => nomatch h0⟩
  show (if s.qCount = 0 then 0 else s.qRd) < s.qCount + 1
  split <;> omega

theorem storageInv_appended {s : State} (c : Command) (h : StorageInv s) (hwr : s.qWr = s.qCount)
    (hlt : s.qWr < queueCap) : StorageInv (appended c s) := by
  obtain ⟨hwf, hlive⟩ := h
  refine ⟨Memory.wf_write _ hwf hlt, fun j hj => ?_⟩
  change j < s.qCount + 1 at hj
  show ∃ d, Memory.read (Memory.write s.qMem s.qWr (enc c)) j = some (enc d)
  by_cases heq : j = s.qWr
  · exact ⟨c, by rw [heq, Memory.read_write_same]⟩
  · rw [Memory.read_write_other _ _ _ _ heq]
    exact hlive j (by omega)

theorem queueInv_played {s : State} (c : Command) (h : QueueInv s) (hrd : s.qRd < s.qCount) :
    QueueInv (played c s) := by
  obtain ⟨hcap, hwr, -, -⟩ := h
  unfold played
  split
  · exact ⟨Nat.zero_le _, rfl, fun h0 => absurd h0 (Nat.lt_irrefl 0), fun _ => rfl⟩
  · refine ⟨hcap, hwr, fun _ => ?_, fun h0 => ?_⟩
    · show s.qRd + 1 < s.qCount
      omega
    · change s.qCount = 0 at h0
      omega

theorem played_qCount_le (c : Command) (s : State) : (played c s).qCount ≤ s.qCount := by
  unfold played
  split
  · exact Nat.zero_le _
  · exact le_refl _

/-- Fewer live entries of the same storage are live entries still. -/
theorem storageInv_of_qCount_le {s t : State} (h : StorageInv s) (hmem : t.qMem = s.qMem)
    (hle : t.qCount ≤ s.qCount) : StorageInv t := by
  obtain ⟨hwf, hlive⟩ := h
  rw [StorageInv, hmem]
  exact ⟨hwf, fun j hj => hlive j (hj.trans_le hle)⟩

theorem synInv_synth (cfg : Config) (c : Command) : SynInv cfg (synth cfg c) := by
  cases c <;> by_cases h0 : synthMaxOf cfg = 0#12 <;> simp [SynInv, synth, h0]

/-! ### The state after RESET -/

/-- R230 meets R52 to R59, in every valid configuration. -/
theorem inv_resetWith {c : Config} (hv : c.valid = true) (hb : c.btn3 = .identity) : Inv (State.resetWith c) := by
  obtain ⟨-, hlen, -, hplay, haout, -⟩ := Config.bounds hv
  exact {
    config := hv
    btn3 := hb
    axis0 := axisInv_reset hv
    axis1 := axisInv_reset hv
    phase := ⟨hlen, rfl⟩
    gates := ⟨List.length_replicate, fun g hg => List.eq_of_mem_replicate hg ▸ gateInv_reset c⟩
    queue := ⟨Nat.zero_le _, rfl, fun h0 => absurd h0 (Nat.lt_irrefl 0), fun _ => rfl⟩
    storage := ⟨Memory.wf_nil, fun j hj => absurd hj (Nat.not_lt_zero j)⟩
    syn := synInv_synth c .noMovement
    cadence := ⟨hplay, haout⟩ }

/-- Settles O52: nothing is presented after RESET, and the reset values meet each invariant. -/
theorem resetMeetsTheInvariants : Obligations.ResetMeetsTheInvariants :=
  fun _ hv hb => ⟨inv_resetWith hv hb, fun _ => List.not_mem_nil⟩

theorem Inv.axis {s : State} (h : Inv s) (a : AxisId) : AxisInv s.cfg (s.ax a) :=
  match a with
  | .axis0 => h.axis0
  | .axis1 => h.axis1

/-! ### The invariants under the shared operations

An update of a state gives a state that differs in the fields it names, so the invariants of the other fields are those
of the state before, taken over by `{ h with … }`; where no invariant is affected, `config` is named to stand for all. -/

section Keeps

variable {s : State} (h : Inv s)
include h

theorem inv_withEnv (env : List Stimulus) : Inv { s with env := env } := { h with config := h.config }

theorem inv_resetState : Inv (resetState s) :=
  { inv_resetWith h.config h.btn3 with storage := storageInv_of_qCount_le h.storage rfl (Nat.zero_le _) }

theorem inv_setAx {a : AxisId} {r : AxisRegs} (hr : AxisInv s.cfg r) (hp : r.pwmPhase = (s.ax a).pwmPhase) :
    Inv (s.setAx a r) := by
  obtain ⟨hlt, heq⟩ := h.phase
  cases a
  · exact { h with axis0 := hr, phase := ⟨hp ▸ hlt, hp ▸ heq⟩ }
  · exact { h with axis1 := hr, phase := ⟨hlt, hp.trans heq⟩ }

theorem inv_setPin (a : AxisId) (p : Pins) : Inv (s.setPin a p) := by
  cases a <;> exact { h with config := h.config }

theorem inv_transmit (bs : List Byte) : Inv (transmit bs s) := { h with config := h.config }

theorem inv_appended (c : Command) (hfull : s.qCount ≠ queueCap) (hlt : s.qWr < queueCap) : Inv (appended c s) := by
  obtain ⟨-, hwr, -⟩ := h.queue
  obtain ⟨hpb, hao⟩ := h.cadence
  refine { h with
    queue := queueInv_appended c h.queue hfull
    storage := storageInv_appended c h.storage hwr hlt
    cadence := ⟨?_, hao⟩ }
  show (if s.qCount = 0 then 0 else s.qPbCnt) < s.cfg.playbackTicks
  split <;> omega

theorem inv_played (c : Command) (hrd : s.qRd < s.qCount) : Inv (played c s) := by
  have hqueue := queueInv_played c h.queue hrd
  have hstorage := storageInv_of_qCount_le h.storage (played_qMem c s) (played_qCount_le c s)
  obtain ⟨wr, rd, count, heq⟩ := played_eq_update c s
  rw [heq] at hqueue hstorage ⊢
  exact { h with queue := hqueue, storage := hstorage, syn := synInv_synth s.cfg c }

theorem inv_playback {t : State} (hp : playback s = .ok t) : Inv t := by
  obtain ⟨-, rfl⟩ | ⟨-, c, hrd, -, rfl⟩ := playback_cases hp
  · exact h
  · exact inv_played h c hrd

theorem inv_btnEdge {k : BitVec 2} {t : State} (he : execBtnEdge k s = .next t) : Inv t := by
  obtain ⟨-, g, -, ⟨-, rfl⟩ | ⟨-, rfl⟩⟩ := execBtnEdge_cases he
  · exact h
  · obtain ⟨mode, sel, heq⟩ := buttonAction_eq_update k h.btn3
    rw [heq]
    exact { h with gates := gatesInv_set h.gates (gateInv_close h.config g) }

/-- The parts of a tick but its playback, on a state that meets the invariants. -/
theorem inv_tickStart : Inv (tickStart s) := by
  obtain ⟨-, hlen, -, -, haout, -⟩ := Config.bounds h.config
  obtain ⟨hpb, hao⟩ := h.cadence
  rw [tickStart_eq]
  refine { h with
    phase := ⟨incMod_lt hlen, congrArg (incMod · s.cfg.pwmCycleLen) h.phase.2⟩
    gates := gatesInv_map_tick h.gates
    cadence := ⟨hpb, ?_⟩ }
  show (if s.aoCnt + 1 = s.cfg.aoutTicks then 0 else s.aoCnt + 1) < s.cfg.aoutTicks
  split <;> omega

theorem inv_tickPlayback {t : State} (hp : tickPlayback s = .ok t) : Inv t := by
  obtain ⟨u, hu, rfl⟩ := tickPlayback_cases hp
  obtain ⟨hinv, hcfg⟩ : Inv u ∧ u.cfg = s.cfg := by
    obtain ⟨-, rfl⟩ | ⟨-, hu⟩ := hu
    · exact ⟨h, rfl⟩
    · exact ⟨inv_playback h hu, playback_cfg hu⟩
  obtain ⟨-, -, -, hplay, -⟩ := Config.bounds hinv.config
  exact { hinv with cadence := ⟨hcfg ▸ incMod_lt hplay, hinv.cadence.2⟩ }

theorem inv_serial {i : Instr} {b : Byte} {t : State} (hb : receivedByte i = some b) (he : exec i s = .next t) :
    Inv t := by
  obtain ⟨-, rfl⟩ | ⟨hfull, hlt, rfl⟩ := exec_serial_inv hb he
  · exact inv_transmit h _
  · exact inv_transmit (inv_appended h _ hfull hlt) _

/-- R52 to R59 are kept by every operation that is no micro-operation. -/
theorem inv_exec {i : Instr} {t : State} (hm : i.isMicro = false) (he : exec i s = .next t) : Inv t := by
  cases i with
  | reset => rw [exec_reset_inv he]; exact inv_resetState h
  | tick => exact inv_tickPlayback (inv_tickStart h) (finish_next (configured_next he).2)
  | btnEdge k => exact inv_btnEdge h he
  | sample c0 c1 c2 c3 =>
    obtain ⟨v, x, y, -, hx, hy, rfl⟩ := exec_sample_inv he
    exact { h with
      axis0 := h.axis0.withMeasured (hx ▸ isReading_channelDiff _ _)
      axis1 := h.axis1.withMeasured (hy ▸ isReading_channelDiff _ _) }
  | pidStep a =>
    obtain ⟨r, rfl, rfl⟩ := exec_pidStep_inv he
    exact inv_setAx h (axisInv_pidUpdate h.config (h.axis a)) (pidUpdate_pwmPhase s.cfg (s.ax a))
  | pwmStep a en => rw [exec_pwmStep_inv he]; exact inv_setPin h a _
  | aoutStep =>
    obtain ⟨-, v, -, rfl⟩ | ⟨-, rfl⟩ := exec_aoutStep_inv he
    · exact { h with config := h.config }
    · exact h
  | gateTimeout g => exact nomatch hm
  | playbackStep => exact nomatch hm
  | serialRx | cmdNomove | cmdRight | cmdLeft | cmdUp | cmdDown | cmdEnd | cmdInvalid => exact inv_serial h rfl he

end Keeps

/-! ### Runs -/

theorem decodeSerial_isMicro (b : Byte) : (decodeSerial b).isMicro = false := by
  unfold decodeSerial
  split <;> rfl

/-- Outside a TICK the decoder gives no micro-operation (R80). -/
theorem decode_isMicro {n : Nat} {x : Stimulus} {i : Instr} (hx : ∀ w, x ≠ .tickPart w) (h : decode n x = .ok i) :
    i.isMicro = false := by
  cases x with
  | event w =>
    simp only [decode] at h
    split at h
    · split at h
      · cases h
      · rename_i hmicro
        cases h
        exact Bool.eq_false_of_not_eq_true hmicro
    · cases h
  | serial b => cases h; exact decodeSerial_isMicro b
  | tickPart w => exact absurd rfl (hx w)

theorem playback_env {s t : State} (h : playback s = .ok t) : t.env = s.env := by
  obtain ⟨-, rfl⟩ | ⟨-, c, -, -, rfl⟩ := playback_cases h
  · rfl
  · exact played_env c s

theorem exec_tick_env {s t : State} (h : exec .tick s = .next t) : t.env = s.env := by
  obtain ⟨u, hu, rfl⟩ := exec_tick_inv h
  obtain rfl | ⟨c, -, -, rfl⟩ := tickPlayed_cases hu
  · rfl
  · exact played_env c s

theorem execBtnEdge_env {k : BitVec 2} {s t : State} (h : execBtnEdge k s = .next t) : t.env = s.env := by
  obtain ⟨-, g, -, ⟨-, rfl⟩ | ⟨-, rfl⟩⟩ := execBtnEdge_cases h
  · rfl
  · exact buttonAction_env k s

theorem exec_serial_env {i : Instr} {b : Byte} {s t : State} (hb : receivedByte i = some b) (h : exec i s = .next t) :
    t.env = s.env := by
  obtain ⟨-, rfl⟩ | ⟨-, -, rfl⟩ := exec_serial_inv hb h <;> rfl

/-- No operation touches what the environment presents next. -/
theorem exec_env {i : Instr} {s t : State} (h : exec i s = .next t) : t.env = s.env := by
  cases i with
  | reset => rw [exec_reset_inv h]; rfl
  | tick => exact exec_tick_env h
  | btnEdge k => exact execBtnEdge_env h
  | sample c0 c1 c2 c3 => obtain ⟨v, x, y, -, -, -, rfl⟩ := exec_sample_inv h; rfl
  | pidStep a => obtain ⟨r, -, rfl⟩ := exec_pidStep_inv h; exact State.setAx_env s r a
  | pwmStep a en => rw [exec_pwmStep_inv h, State.setPin_env]
  | aoutStep => obtain ⟨-, v, -, rfl⟩ | ⟨-, rfl⟩ := exec_aoutStep_inv h <;> rfl
  | gateTimeout g => obtain ⟨x, -, rfl⟩ := exec_gateTimeout_inv h; rfl
  | playbackStep => exact playback_env (exec_playbackStep_inv h)
  | serialRx | cmdNomove | cmdRight | cmdLeft | cmdUp | cmdDown | cmdEnd | cmdInvalid => exact exec_serial_env rfl h

/-- Settles O51: a run presents no micro-operation, and every other operation keeps the invariants. -/
theorem stepKeepsTheInvariants : Obligations.StepKeepsTheInvariants := by
  intro s t h hrun hstep
  obtain ⟨-, rfl⟩ | ⟨x, rest, i, henv, hdec, hexec⟩ := step_cases hstep
  · exact ⟨h, hrun⟩
  · rw [IsRun, henv] at hrun
    have hx : ∀ w, x ≠ .tickPart w := fun w hw => hrun w (hw ▸ List.mem_cons_self)
    refine ⟨inv_exec (inv_withEnv h rest) (decode_isMicro hx hdec) hexec, fun w hw => ?_⟩
    rw [exec_env hexec] at hw
    exact hrun w (List.mem_cons_of_mem x hw)

/-! ### The storage -/

theorem playback_qMem {s t : State} (h : playback s = .ok t) : t.qMem = s.qMem := by
  obtain ⟨-, rfl⟩ | ⟨-, c, -, -, rfl⟩ := playback_cases h
  · rfl
  · exact played_qMem c s

theorem exec_tick_qMem {s t : State} (h : exec .tick s = .next t) : t.qMem = s.qMem := by
  obtain ⟨u, hu, rfl⟩ := exec_tick_inv h
  obtain rfl | ⟨c, -, -, rfl⟩ := tickPlayed_cases hu
  · rfl
  · exact played_qMem c s

theorem execBtnEdge_qMem {k : BitVec 2} {s t : State} (hb : s.cfg.btn3 = .identity)
    (h : execBtnEdge k s = .next t) : t.qMem = s.qMem := by
  obtain ⟨-, g, -, ⟨-, rfl⟩ | ⟨-, rfl⟩⟩ := execBtnEdge_cases h
  · rfl
  · obtain ⟨mode, sel, heq⟩ := buttonAction_eq_update k hb
    rw [heq]

/-- An operation that receives no byte leaves the storage alone. -/
theorem exec_qMem {i : Instr} {s t : State} (hb : s.cfg.btn3 = .identity) (hi : receivedByte i = none)
    (h : exec i s = .next t) : t.qMem = s.qMem := by
  cases i with
  | reset => rw [exec_reset_inv h]; rfl
  | tick => exact exec_tick_qMem h
  | btnEdge k => exact execBtnEdge_qMem hb h
  | sample c0 c1 c2 c3 => obtain ⟨v, x, y, -, -, -, rfl⟩ := exec_sample_inv h; rfl
  | pidStep a => obtain ⟨r, -, rfl⟩ := exec_pidStep_inv h; exact State.setAx_qMem s r a
  | pwmStep a en => rw [exec_pwmStep_inv h, State.setPin_qMem]
  | aoutStep => obtain ⟨-, v, -, rfl⟩ | ⟨-, rfl⟩ := exec_aoutStep_inv h <;> rfl
  | gateTimeout g => obtain ⟨x, -, rfl⟩ := exec_gateTimeout_inv h; rfl
  | playbackStep => exact playback_qMem (exec_playbackStep_inv h)
  | serialRx | cmdNomove | cmdRight | cmdLeft | cmdUp | cmdDown | cmdEnd | cmdInvalid => exact nomatch hi

/-- A received byte stores at the write cursor, and nowhere on a full queue. -/
theorem exec_serial_read {i : Instr} {b : Byte} {s t : State} {a : Nat} (hi : receivedByte i = some b)
    (h : exec i s = .next t) (ha : s.qCount = queueCap ∨ a ≠ s.qWr) :
    Memory.read t.qMem a = Memory.read s.qMem a := by
  obtain ⟨-, rfl⟩ | ⟨hfull, -, rfl⟩ := exec_serial_inv hi h
  · rfl
  · exact Memory.read_write_other s.qMem s.qWr a _ (ha.resolve_left hfull)

/-- Settles O50. -/
theorem onlyReceivedBytesAreStored : Obligations.OnlyReceivedBytesAreStored := by
  intro i s t a hb _ h ha
  cases hi : receivedByte i with
  | none => rw [exec_qMem hb hi h]
  | some b => exact exec_serial_read hi h (ha.resolve_left (by rw [hi]; exact Option.some_ne_none b))

/-! ### What a register number reads (R50) -/

/-- Two states agree in the field that register `n` reads. -/
structure RegisterAgrees (n : Nat) (s t : State) : Prop where
  ax0 : n < 10 → t.ax0.register n = s.ax0.register n := by intros; rfl
  pin0 : 10 ≤ n → n < 16 → t.pin0.register n = s.pin0.register n := by intros; rfl
  ax1 : 16 ≤ n → n < 26 → t.ax1.register (n - 16) = s.ax1.register (n - 16) := by intros; rfl
  pin1 : 26 ≤ n → n < 32 → t.pin1.register (n - 16) = s.pin1.register (n - 16) := by intros; rfl
  mode : n = 32 → t.mode = s.mode := by intros; rfl
  sel : n = 33 → t.sel = s.sel := by intros; rfl
  gates : 34 ≤ n → n < 42 → gateRegister t.gates n = gateRegister s.gates n := by intros; rfl
  qWr : n = 42 → t.qWr = s.qWr := by intros; rfl
  qRd : n = 43 → t.qRd = s.qRd := by intros; rfl
  qCount : n = 44 → t.qCount = s.qCount := by intros; rfl
  qPbCnt : n = 45 → t.qPbCnt = s.qPbCnt := by intros; rfl
  syn : 46 ≤ n → n < 50 → t.syn = s.syn := by intros; rfl
  aout : n = 50 → t.aout = s.aout := by intros; rfl
  aoCnt : n = 51 → t.aoCnt = s.aoCnt := by intros; rfl
  aoDue : n = 52 → t.aoDue = s.aoDue := by intros; rfl

theorem RegisterAgrees.register_eq {n : Nat} {s t : State} (h : RegisterAgrees n s t) :
    t.register n = s.register n := by
  unfold State.register
  repeat' refine ite_congr rfl (fun _ => ?_) fun _ => ?_
  · exact h.ax0 ‹_›
  · exact h.pin0 (by omega) ‹_›
  · exact h.ax1 (by omega) ‹_›
  · exact h.pin1 (by omega) ‹_›
  · rw [h.mode ‹_›]
  · rw [h.sel ‹_›]
  · exact h.gates (by omega) ‹_›
  · rw [h.qWr ‹_›]
  · rw [h.qRd ‹_›]
  · rw [h.qCount ‹_›]
  · rw [h.qPbCnt ‹_›]
  iterate 4 rw [h.syn (by omega) (by omega)]
  · rw [h.aout ‹_›]
  · rw [h.aoCnt ‹_›]
  · rw [h.aoDue ‹_›]
  · rfl

theorem State.register_of_ge (s : State) {n : Nat} (h : 53 ≤ n) : s.register n = none := by
  simp (disch := omega) only [State.register, if_neg]

theorem AxisRegs.register_withPhase (r : AxisRegs) (p : Nat) :
    ∀ n, n ≠ 9 → { r with pwmPhase := p }.register n = r.register n
  | 0, _ | 1, _ | 2, _ | 3, _ | 4, _ | 5, _ | 6, _ | 7, _ | 8, _ => rfl
  | 9, h => absurd rfl h
  | _ + 10, _ => rfl

theorem AxisRegs.register_withMeasured (r : AxisRegs) (x : F64) :
    ∀ n, n ≠ 1 → { r with measured := x }.register n = r.register n
  | 1, h => absurd rfl h
  | 0, _ | 2, _ | 3, _ | 4, _ | 5, _ | 6, _ | 7, _ | 8, _ | 9, _ => rfl
  | _ + 10, _ => rfl

/-- A PID update leaves the setpoint, the reading and the phase. -/
theorem register_pidUpdate (c : Config) (r : AxisRegs) :
    ∀ n, n ∉ [2, 3, 4, 5, 6, 7, 8] → (pidUpdate c r).register n = r.register n
  | 0, _ => congrArg (some <| RegValue.float ·) (pidUpdate_setpoint c r)
  | 1, _ => congrArg (some <| RegValue.float ·) (pidUpdate_measured c r)
  | 2, h | 3, h | 4, h | 5, h | 6, h | 7, h | 8, h => absurd (by decide) h
  | 9, _ => congrArg (some <| RegValue.nat ·) (pidUpdate_pwmPhase c r)
  | _ + 10, _ => rfl

/-- No number from 13 up is a pin's. -/
theorem Pins.register_of_ge (p q : Pins) : ∀ {n}, 13 ≤ n → p.register n = q.register n
  | _ + 13, _ => rfl

theorem gateRegister_set_other {gs : List Gate} {n g : Nat} (x : Gate) (h : (n - 34) / 2 ≠ g) :
    gateRegister (gs.set g x) n = gateRegister gs n := by
  unfold gateRegister
  rw [List.getElem?_set_ne (Ne.symm h)]

/-- A timeout writes `is_open` only, the even register of its gate. -/
theorem gateRegister_set_timeout {gs : List Gate} {n g : Nat} {x : Gate} (hx : gs[g]? = some x) (hn : 34 ≤ n)
    (h : n ≠ 34 + 2 * g) : gateRegister (gs.set g x.timeout) n = gateRegister gs n := by
  by_cases hg : (n - 34) / 2 = g
  · have hodd : n % 2 ≠ 0 := by omega
    have hlt : g < gs.length := (List.getElem?_eq_some_iff.mp hx).1
    simp only [gateRegister, hg, List.getElem?_set_self hlt, hx, hodd, if_false, Gate.timeout]
  · exact gateRegister_set_other _ hg

/-! ### What each operation leaves of the registers (R51) -/

section Frame

variable {n : Nat} {s t : State}

theorem registerAgrees_refl (n : Nat) (s : State) : RegisterAgrees n s s := {}

theorem registerAgrees_setAx {a : AxisId} {r : AxisRegs}
    (hr : ∀ m, n = m + 16 * axisBit a → r.register m = (s.ax a).register m) : RegisterAgrees n s (s.setAx a r) := by
  cases a
  · exact { ax0 := fun _ => hr n rfl }
  · exact { ax1 := fun hlo _ => hr (n - 16) (Nat.sub_add_cancel hlo).symm }

theorem registerAgrees_setPin {a : AxisId} (p : Pins) (hn : n ∉ [10, 11, 12].map (· + 16 * axisBit a)) :
    RegisterAgrees n s (s.setPin a p) := by
  have hrange : n < 10 + 16 * axisBit a ∨ 13 + 16 * axisBit a ≤ n := by
    simp only [List.map_cons, List.map_nil, List.mem_cons, List.not_mem_nil] at hn
    omega
  cases a
  · exact { pin0 := fun hlo _ => Pins.register_of_ge _ _ (hrange.resolve_left (Nat.not_lt.mpr hlo)) }
  · have hge : 26 ≤ n → 29 ≤ n := fun hlo => hrange.resolve_left (Nat.not_lt.mpr hlo)
    exact { pin1 := fun hlo _ => Pins.register_of_ge _ _ (Nat.le_sub_of_add_le (hge hlo)) }

theorem registerAgrees_played (c : Command) (s : State) (hn : n < 42 ∨ n = 45 ∨ 50 ≤ n) :
    RegisterAgrees n s (played c s) := by
  obtain ⟨wr, rd, count, heq⟩ := played_eq_update c s
  rw [heq]
  exact {
    qWr := fun _ => by omega
    qRd := fun _ => by omega
    qCount := fun _ => by omega
    syn := fun _ _ => by omega }

theorem registerAgrees_playback (h : playback s = .ok t) (hn : n < 42 ∨ n = 45 ∨ 50 ≤ n) :
    RegisterAgrees n s t := by
  obtain ⟨-, rfl⟩ | ⟨-, c, -, -, rfl⟩ := playback_cases h
  · exact registerAgrees_refl n t
  · exact registerAgrees_played c s hn

theorem not_mem_writes_tick {c : Config} (hn : n ∉ writes c .tick) :
    n ≠ 9 ∧ n ≠ 25 ∧ (n < 34 ∨ 50 ≤ n) ∧ n ≠ 51 ∧ n ≠ 52 := by
  have hgate : ∀ g, g < 8 → g + 34 ≠ n := fun g hg heq => hn (by simp [writes, ← heq, hg])
  simp only [writes, List.mem_append, List.mem_cons, not_or] at hn
  have := hgate (n - 34)
  omega

theorem registerAgrees_tick (h : exec .tick s = .next t) (hn : n ∉ writes s.cfg .tick) : RegisterAgrees n s t := by
  obtain ⟨h9, h25, hmid, h51, h52⟩ := not_mem_writes_tick hn
  obtain ⟨u, hu, rfl⟩ := exec_tick_inv h
  have hagree : RegisterAgrees n s u := by
    obtain rfl | ⟨c, -, -, rfl⟩ := tickPlayed_cases hu
    · exact registerAgrees_refl n u
    · exact registerAgrees_played c s (by omega)
  exact { hagree with
    ax0 := fun _ => AxisRegs.register_withPhase _ _ n h9
    ax1 := fun _ _ => AxisRegs.register_withPhase _ _ (n - 16) (by omega)
    gates := fun _ _ => by omega
    qPbCnt := fun _ => by omega
    aoCnt := fun h => absurd h h51
    aoDue := fun h => absurd h h52 }

theorem registerAgrees_buttonAction {k : BitVec 2} (hb : s.cfg.btn3 = .identity)
    (hn : n ∉ writes s.cfg (.btnEdge k)) : RegisterAgrees n s (buttonAction k s) := by
  obtain ⟨rfl, heq⟩ | ⟨rfl, heq⟩ | ⟨rfl, heq⟩ | ⟨rfl, heq⟩ := buttonAction_cases k hb <;> rw [heq]
  · exact { mode := fun h32 => absurd (by simp [writes, h32]) hn }
  · exact { mode := fun h32 => absurd (by simp [writes, h32]) hn }
  · exact { sel := fun h33 => absurd (by simp [writes, h33]) hn }
  · exact registerAgrees_refl n s

theorem registerAgrees_btnEdge {k : BitVec 2} (hb : s.cfg.btn3 = .identity) (h : execBtnEdge k s = .next t)
    (hn : n ∉ writes s.cfg (.btnEdge k)) : RegisterAgrees n s t := by
  obtain ⟨-, g, -, ⟨-, rfl⟩ | ⟨-, rfl⟩⟩ := execBtnEdge_cases h
  · exact registerAgrees_refl n t
  · have hopen : n ≠ 34 + 2 * s.cfg.gateOf.of k := fun heq => hn (by simp [writes, heq])
    have hcnt : n ≠ 35 + 2 * s.cfg.gateOf.of k := fun heq => hn (by simp [writes, heq])
    exact { registerAgrees_buttonAction hb hn with
      gates := fun _ _ => gateRegister_set_other _ (by omega) }

theorem registerAgrees_serial {i : Instr} {b : Byte} (hi : receivedByte i = some b) (h : exec i s = .next t)
    (hn : n < 42 ∨ 46 ≤ n) : RegisterAgrees n s t := by
  obtain ⟨-, rfl⟩ | ⟨-, -, rfl⟩ := exec_serial_inv hi h
  · exact {}
  · exact {
      qWr := fun _ => by omega
      qRd := fun _ => by omega
      qCount := fun _ => by omega
      qPbCnt := fun _ => by omega }

theorem registerAgrees_sample {c0 c1 c2 c3 : BitVec 12} (h : exec (.sample c0 c1 c2 c3) s = .next t)
    (hn : n ∉ writes s.cfg (.sample c0 c1 c2 c3)) : RegisterAgrees n s t := by
  obtain ⟨h1, h17⟩ : n ≠ 1 ∧ n ≠ 17 := by simpa [writes] using hn
  obtain ⟨v, x, y, -, -, -, rfl⟩ := exec_sample_inv h
  exact {
    ax0 := fun _ => AxisRegs.register_withMeasured _ _ n h1
    ax1 := fun _ _ => AxisRegs.register_withMeasured _ _ (n - 16) (by omega) }

/-- R51: an operation leaves the field of every register it does not write. -/
theorem registerAgrees_exec {i : Instr} (hb : s.cfg.btn3 = .identity) (hi : i ≠ .reset) (h : exec i s = .next t)
    (hn : n ∉ writes s.cfg i) : RegisterAgrees n s t := by
  cases i with
  | reset => exact absurd rfl hi
  | tick => exact registerAgrees_tick h hn
  | btnEdge k => exact registerAgrees_btnEdge hb h hn
  | sample c0 c1 c2 c3 => exact registerAgrees_sample h hn
  | pidStep a =>
    obtain ⟨r, rfl, rfl⟩ := exec_pidStep_inv h
    refine registerAgrees_setAx fun m hm => register_pidUpdate s.cfg (s.ax a) m fun hmem => hn ?_
    exact hm ▸ List.mem_map_of_mem hmem
  | pwmStep a en => rw [exec_pwmStep_inv h]; exact registerAgrees_setPin _ hn
  | aoutStep =>
    obtain ⟨h50, h52⟩ : n ≠ 50 ∧ n ≠ 52 := by simpa [writes] using hn
    obtain ⟨-, v, -, rfl⟩ | ⟨-, rfl⟩ := exec_aoutStep_inv h
    · exact { aout := fun h => absurd h h50, aoDue := fun h => absurd h h52 }
    · exact registerAgrees_refl n t
  | gateTimeout g =>
    obtain ⟨x, hx, rfl⟩ := exec_gateTimeout_inv h
    exact { gates := fun hlo _ => gateRegister_set_timeout hx hlo (by simpa [writes] using hn) }
  | playbackStep =>
    exact registerAgrees_playback (exec_playbackStep_inv h) (by simp only [writes, List.mem_cons, not_or] at hn; omega)
  | serialRx | cmdNomove | cmdRight | cmdLeft | cmdUp | cmdDown | cmdEnd | cmdInvalid =>
    exact registerAgrees_serial rfl h (by simp only [writes, List.mem_cons, not_or] at hn; omega)

end Frame

/-- Settles O49: the fields of the registers an operation does not write are as before; RESET writes them all. -/
theorem operationsWriteOnlyTheirRegisters : Obligations.OperationsWriteOnlyTheirRegisters := by
  intro i s t n hb h hn
  by_cases hi : i = .reset
  · subst hi
    have hge : 53 ≤ n := by simpa [writes] using hn
    rw [State.register_of_ge t hge, State.register_of_ge s hge]
  · exact (registerAgrees_exec hb hi h hn).register_eq

end Sys2Proof.Machine
end

section
/-! PROOFS. The command storage (20_memory.md): dead entries cannot be told (R66), 1024 entries and no more (R76), and
where an operation that finds no entry stops (R62, R63).

Two states that differ in dead entries only are one state with two storages that agree below `Q.count`. A read is of a
live entry or refused, an append makes its own entry the next live one, and nothing else makes an entry live; so each
operation gives such a pair the same outcome. -/

namespace Sys2Proof.Machine

/-! ### The shared operations that may stop -/

theorem memRead_deadEntry {s : State} {a : Nat} (h : s.qCount ≤ a ∨ Memory.read s.qMem a = none) :
    memRead s a = .error (.refused .deadEntry) := by
  unfold memRead
  split
  · rename_i hlive
    rw [h.resolve_left (Nat.not_le.mpr hlive)]
  · rfl

theorem dec_badCommandCode {v : Byte} (h : 5 < v.toNat) : dec v = .error (.refused .badCommandCode) := by
  unfold dec
  split
  case h_7 => rfl
  all_goals omega

theorem receive_noSuchEntry {c : Command} {echo : Byte} {s : State} (h : s.qCount ≠ queueCap) (hw : queueCap ≤ s.qWr) :
    receive c echo s = .error (.fault .noSuchEntry) := by
  simp [receive, append, memWrite, h, Nat.not_lt.mpr hw]

/-- The command of the entry at the read cursor. -/
def commandAtCursor (s : State) : Except Stop Command := (memRead s s.qRd).bind dec

/-- R160: on a queue that is not empty a playback reads a command and plays it, or stops as the read does. -/
theorem playback_eq (s : State) :
    playback s = if s.qCount = 0 then .ok s else (commandAtCursor s).map (played · s) := by
  unfold playback commandAtCursor played
  split
  · rfl
  · cases memRead s s.qRd with
    | error e => rfl
    | ok v =>
      cases hdec : dec v with
      | error e => simp only [Except.bind, Except.map, hdec]
      | ok c => simp only [Except.bind, Except.map, hdec]; split <;> rfl

/-- R183: the tick plays when the counter is found at 0, and the counter steps whatever that gave. -/
theorem tickPlayback_eq (s : State) :
    tickPlayback s = (if s.qPbCnt = 0 then playback s else .ok s).map
      fun u => { u with qPbCnt := incMod s.qPbCnt s.cfg.playbackTicks } := by
  unfold tickPlayback
  cases (if s.qPbCnt = 0 then playback s else .ok s) <;> rfl

/-! ### States that differ in dead entries only -/

theorem sameButDead_iff {s t : State} : SameButDead s t ↔
    ∃ m, t = { s with qMem := m } ∧ ∀ i, i < s.qCount → Memory.read s.qMem i = Memory.read m i := by
  constructor
  · rintro ⟨heq, hlive⟩
    exact ⟨t.qMem, (congrArg (fun u : State => { u with qMem := t.qMem }) heq).symm, hlive⟩
  · rintro ⟨m, rfl, hlive⟩
    exact ⟨rfl, hlive⟩

section Pair

variable {s t : State} (h : SameButDead s t)
include h

theorem SameButDead.cfg_eq : t.cfg = s.cfg := (congrArg State.cfg h.1).symm
theorem SameButDead.gates_eq : t.gates = s.gates := (congrArg State.gates h.1).symm
theorem SameButDead.sel_eq : t.sel = s.sel := (congrArg State.sel h.1).symm
theorem SameButDead.aoDue_eq : t.aoDue = s.aoDue := (congrArg State.aoDue h.1).symm
theorem SameButDead.qWr_eq : t.qWr = s.qWr := (congrArg State.qWr h.1).symm
theorem SameButDead.qRd_eq : t.qRd = s.qRd := (congrArg State.qRd h.1).symm
theorem SameButDead.qCount_eq : t.qCount = s.qCount := (congrArg State.qCount h.1).symm
theorem SameButDead.qPbCnt_eq : t.qPbCnt = s.qPbCnt := (congrArg State.qPbCnt h.1).symm
theorem SameButDead.env_eq : t.env = s.env := (congrArg State.env h.1).symm

theorem SameButDead.ax_eq (a : AxisId) : t.ax a = s.ax a := by
  obtain ⟨m, rfl, -⟩ := sameButDead_iff.mp h
  cases a <;> rfl

theorem SameButDead.sampleSource_eq (v : Channels) : sampleSource t v = sampleSource s v := by
  obtain ⟨m, rfl, -⟩ := sameButDead_iff.mp h
  rfl

theorem SameButDead.memRead_eq (a : Nat) : memRead t a = memRead s a := by
  unfold memRead
  rw [h.qCount_eq]
  split
  · rw [h.2 a ‹_›]
  · rfl

theorem SameButDead.commandAtCursor_eq : commandAtCursor t = commandAtCursor s := by
  rw [commandAtCursor, commandAtCursor, h.memRead_eq, h.qRd_eq]

/-! The updates of the operations keep the relation. -/

theorem sameButDead_withEnv (env : List Stimulus) : SameButDead { s with env := env } { t with env := env } := by
  obtain ⟨m, rfl, hlive⟩ := sameButDead_iff.mp h
  exact ⟨rfl, hlive⟩

theorem sameButDead_withQPbCnt (n : Nat) : SameButDead { s with qPbCnt := n } { t with qPbCnt := n } := by
  obtain ⟨m, rfl, hlive⟩ := sameButDead_iff.mp h
  exact ⟨rfl, hlive⟩

theorem sameButDead_withGates (gs : List Gate) : SameButDead { s with gates := gs } { t with gates := gs } := by
  obtain ⟨m, rfl, hlive⟩ := sameButDead_iff.mp h
  exact ⟨rfl, hlive⟩

theorem sameButDead_setAx (a : AxisId) (r : AxisRegs) : SameButDead (s.setAx a r) (t.setAx a r) := by
  obtain ⟨m, rfl, hlive⟩ := sameButDead_iff.mp h
  cases a <;> exact ⟨rfl, hlive⟩

theorem sameButDead_setPin (a : AxisId) (p : Pins) : SameButDead (s.setPin a p) (t.setPin a p) := by
  obtain ⟨m, rfl, hlive⟩ := sameButDead_iff.mp h
  cases a <;> exact ⟨rfl, hlive⟩

theorem sameButDead_withMeasured (x y : F64) : SameButDead
    { s with ax0 := { s.ax0 with measured := x }, ax1 := { s.ax1 with measured := y } }
    { t with ax0 := { t.ax0 with measured := x }, ax1 := { t.ax1 with measured := y } } := by
  obtain ⟨m, rfl, hlive⟩ := sameButDead_iff.mp h
  exact ⟨rfl, hlive⟩

theorem sameButDead_withAout (v : BitVec 10) :
    SameButDead { s with aout := v, aoDue := false } { t with aout := v, aoDue := false } := by
  obtain ⟨m, rfl, hlive⟩ := sameButDead_iff.mp h
  exact ⟨rfl, hlive⟩

theorem sameButDead_transmit (bs : List Byte) : SameButDead (transmit bs s) (transmit bs t) := by
  obtain ⟨m, rfl, hlive⟩ := sameButDead_iff.mp h
  exact ⟨rfl, hlive⟩

/-- After RESET no entry is live. -/
theorem sameButDead_resetState : SameButDead (resetState s) (resetState t) := by
  obtain ⟨m, rfl, -⟩ := sameButDead_iff.mp h
  exact ⟨rfl, fun i hi => absurd hi (Nat.not_lt_zero i)⟩

/-- The entry an append makes live is the one it writes. -/
theorem sameButDead_appended (c : Command) (hwr : s.qWr = s.qCount) : SameButDead (appended c s) (appended c t) := by
  obtain ⟨m, rfl, hlive⟩ := sameButDead_iff.mp h
  refine ⟨rfl, fun i hi => ?_⟩
  change i < s.qCount + 1 at hi
  show Memory.read (Memory.write s.qMem s.qWr (enc c)) i = Memory.read (Memory.write m s.qWr (enc c)) i
  by_cases heq : i = s.qWr
  · rw [heq, Memory.read_write_same, Memory.read_write_same]
  · rw [Memory.read_write_other _ _ _ _ heq, Memory.read_write_other _ _ _ _ heq]
    exact hlive i (by omega)

/-- A playback makes no entry live. -/
theorem sameButDead_played (c : Command) : SameButDead (played c s) (played c t) := by
  have hle := played_qCount_le c s
  obtain ⟨m, rfl, hlive⟩ := sameButDead_iff.mp h
  refine sameButDead_iff.mpr ⟨m, ?_, fun i hi => ?_⟩
  · unfold played
    dsimp only
    split <;> rfl
  · rw [played_qMem]
    exact hlive i (hi.trans_le hle)

theorem sameButDead_tickStart : SameButDead (tickStart s) (tickStart t) := by
  obtain ⟨m, rfl, hlive⟩ := sameButDead_iff.mp h
  rw [tickStart_eq, tickStart_eq]
  exact ⟨rfl, hlive⟩

theorem sameButDead_buttonAction {k : BitVec 2} (hb : s.cfg.btn3 = .identity) :
    SameButDead (buttonAction k s) (buttonAction k t) := by
  have ht : buttonAction 3 t = t := btn3Action_identity t (h.cfg_eq ▸ hb)
  obtain ⟨rfl, heq⟩ | ⟨rfl, heq⟩ | ⟨rfl, heq⟩ | ⟨rfl, heq⟩ := buttonAction_cases k hb <;> rw [heq]
  case inr.inr.inr => rw [ht]; exact h
  all_goals obtain ⟨m, rfl, hlive⟩ := sameButDead_iff.mp h; exact ⟨rfl, hlive⟩

end Pair

/-! ### Outcomes that cannot be told apart -/

theorem sameOutcome_refl (r : Result) : SameOutcome r r := by
  cases r with
  | next s => exact ⟨rfl, fun _ _ => rfl⟩
  | fault f => exact Eq.refl f
  | refused f => exact Eq.refl f

theorem sameOutcome_configured {s t : State} {r u : Result} (h : SameButDead s t) (hr : SameOutcome r u) :
    SameOutcome (configured s r) (configured t u) := by
  unfold configured
  rw [h.cfg_eq]
  split
  · exact hr
  · exact sameOutcome_refl _

/-- One answer, mapped by two functions that agree but for dead entries. -/
theorem sameOutcome_map {α : Type} (x : Except Stop α) {f g : α → State} (hfg : ∀ a, SameButDead (f a) (g a)) :
    SameOutcome (finish (x.map f)) (finish (x.map g)) := by
  cases x with
  | error e => exact sameOutcome_refl _
  | ok a => exact hfg a

/-- Two answers that cannot be told apart, mapped by two functions that keep that. -/
theorem sameOutcome_map_map {x y : Except Stop State} {f g : State → State} (h : SameOutcome (finish x) (finish y))
    (hfg : ∀ u v, SameButDead u v → SameButDead (f u) (g v)) :
    SameOutcome (finish (x.map f)) (finish (y.map g)) := by
  match x, y with
  | .ok u, .ok v => exact hfg u v h
  | .error e, .error e' => exact h
  | .ok u, .error (.fault r) => exact h.elim
  | .ok u, .error (.refused r) => exact h.elim
  | .error (.fault r), .ok v => exact h.elim
  | .error (.refused r), .ok v => exact h.elim

section Indistinguishable

variable {s t : State} (h : SameButDead s t)
include h

theorem sameOutcome_receive (c : Command) (echo : Byte) (hq : QueueInv s) :
    SameOutcome (finish (receive c echo s)) (finish (receive c echo t)) := by
  obtain ⟨hcap, hwr, -, -⟩ := hq
  by_cases hfull : s.qCount = queueCap
  · rw [receive_full hfull, receive_full (h.qCount_eq.trans hfull)]
    exact sameButDead_transmit h _
  · have hlt : s.qWr < queueCap := by omega
    rw [receive_append hfull hlt, receive_append (h.qCount_eq ▸ hfull) (h.qWr_eq ▸ hlt)]
    exact sameButDead_transmit (sameButDead_appended h c hwr) _

theorem sameOutcome_playback : SameOutcome (finish (playback s)) (finish (playback t)) := by
  rw [playback_eq, playback_eq, h.qCount_eq, h.commandAtCursor_eq]
  split
  · exact h
  · exact sameOutcome_map _ (sameButDead_played h)

theorem sameOutcome_tickPlayback : SameOutcome (finish (tickPlayback s)) (finish (tickPlayback t)) := by
  rw [tickPlayback_eq, tickPlayback_eq, h.qPbCnt_eq, h.cfg_eq]
  refine sameOutcome_map_map ?_ fun u v huv => sameButDead_withQPbCnt huv _
  split
  · exact sameOutcome_playback h
  · exact h

theorem sameOutcome_btnEdge (k : BitVec 2) (hb : s.cfg.btn3 = .identity) :
    SameOutcome (execBtnEdge k s) (execBtnEdge k t) := by
  refine sameOutcome_configured h ?_
  rw [h.cfg_eq, h.gates_eq]
  cases s.gates[s.cfg.gateOf.of k]? with
  | none => exact sameOutcome_refl _
  | some g =>
    dsimp only
    split
    · exact sameButDead_withGates (sameButDead_buttonAction h hb) _
    · exact h

theorem sameOutcome_gateTimeout (g : BitVec 2) : SameOutcome (execGateTimeout g s) (execGateTimeout g t) := by
  refine sameOutcome_configured h ?_
  rw [h.gates_eq]
  cases s.gates[g.toNat]? with
  | none => exact sameOutcome_refl _
  | some x => exact sameButDead_withGates h _

theorem sameOutcome_sample (c0 c1 c2 c3 : BitVec 12) :
    SameOutcome (execSample c0 c1 c2 c3 s) (execSample c0 c1 c2 c3 t) := by
  refine sameOutcome_configured h ?_
  rw [h.sampleSource_eq]
  exact sameButDead_withMeasured h _ _

theorem sameOutcome_pidStep (a : AxisId) : SameOutcome (execPidStep a s) (execPidStep a t) := by
  refine sameOutcome_configured h ?_
  rw [h.cfg_eq, h.ax_eq]
  exact sameButDead_setAx h a _

theorem sameOutcome_pwmStep (a : AxisId) (en : Bool) : SameOutcome (execPwmStep a en s) (execPwmStep a en t) := by
  refine sameOutcome_configured h ?_
  rw [h.cfg_eq, h.ax_eq]
  exact sameButDead_setPin h a _

theorem sameOutcome_aoutStep : SameOutcome (execAoutStep s) (execAoutStep t) := by
  have herror : (t.ax t.sel).error = (s.ax s.sel).error := by rw [h.sel_eq, h.ax_eq]
  refine sameOutcome_configured h ?_
  rw [h.aoDue_eq, herror]
  split
  · exact sameButDead_withAout h _
  · exact h

/-- R66, operation by operation. -/
theorem sameOutcome_exec (i : Instr) (hq : QueueInv s) (hb : s.cfg.btn3 = .identity) :
    SameOutcome (exec i s) (exec i t) := by
  have serial : ∀ c echo,
      SameOutcome (configured s (finish (receive c echo s))) (configured t (finish (receive c echo t))) :=
    fun c echo => sameOutcome_configured h (sameOutcome_receive h c echo hq)
  cases i with
  | reset => exact sameOutcome_configured h (sameButDead_resetState h)
  | tick => exact sameOutcome_configured h (sameOutcome_tickPlayback (sameButDead_tickStart h))
  | btnEdge k => exact sameOutcome_btnEdge h k hb
  | sample c0 c1 c2 c3 => exact sameOutcome_sample h c0 c1 c2 c3
  | pidStep a => exact sameOutcome_pidStep h a
  | pwmStep a en => exact sameOutcome_pwmStep h a en
  | aoutStep => exact sameOutcome_aoutStep h
  | gateTimeout g => exact sameOutcome_gateTimeout h g
  | playbackStep => exact sameOutcome_configured h (sameOutcome_playback h)
  | cmdInvalid b =>
    refine sameOutcome_configured h ?_
    split
    · exact sameOutcome_refl _
    · exact sameOutcome_receive h _ _ hq
  | serialRx | cmdNomove | cmdRight | cmdLeft | cmdUp | cmdDown | cmdEnd => exact serial _ _

end Indistinguishable

theorem step_of_undecodable {s : State} {x : Stimulus} {rest : List Stimulus} {e : DecodeError}
    (henv : s.env = x :: rest) (hdec : decode s.cfg.nGates x = .error e) : step s = .refused (.undecodable e) := by
  simp only [step, fetch_cons s x henv, hdec]

/-- Settles O56: both states present the same stimulus, which decodes alike, and the operation gives them the same
outcome. -/
theorem deadEntriesCannotBeTold : Obligations.DeadEntriesCannotBeTold := by
  intro s t hq hb h
  cases hs : s.env with
  | nil =>
    simp only [step, fetch_nil s hs, fetch_nil t (h.env_eq.trans hs)]
    exact h
  | cons x rest =>
    have ht : t.env = x :: rest := h.env_eq.trans hs
    cases hdec : decode s.cfg.nGates x with
    | error e =>
      rw [step_of_undecodable hs hdec, step_of_undecodable ht (h.cfg_eq ▸ hdec)]
      exact sameOutcome_refl _
    | ok i =>
      rw [step_of_decode hs hdec, step_of_decode ht (h.cfg_eq ▸ hdec)]
      exact sameOutcome_exec (sameButDead_withEnv h rest) i hq hb

/-! ### A full queue, byte by byte -/

/-- The state after a byte that a queue with room receives (R150). -/
def received (b : Byte) (s : State) : State := transmit [echoOf b] (appended (commandOf b) s)

@[simp] theorem received_cfg (b : Byte) (s : State) : (received b s).cfg = s.cfg := rfl
@[simp] theorem received_qWr (b : Byte) (s : State) : (received b s).qWr = s.qWr + 1 := rfl
@[simp] theorem received_qCount (b : Byte) (s : State) : (received b s).qCount = s.qCount + 1 := rfl
@[simp] theorem received_tx (b : Byte) (s : State) : (received b s).tx = s.tx ++ [echoOf b] := rfl
@[simp] theorem received_qMem (b : Byte) (s : State) :
    (received b s).qMem = Memory.write s.qMem s.qWr (enc (commandOf b)) := rfl

theorem exec_serialRx_eq (b : Byte) {s : State} (hv : s.cfg.valid = true) :
    exec (.serialRx b) s = finish (receive (commandOf b) (echoOf b) s) := configured_of_valid hv _

theorem exec_serialRx_received {b : Byte} {s : State} (hv : s.cfg.valid = true) (hroom : s.qCount ≠ queueCap)
    (hw : s.qWr < queueCap) : exec (.serialRx b) s = .next (received b s) := by
  rw [exec_serialRx_eq b hv, receive_append hroom hw, replyBytes_commandOf]
  rfl

theorem exec_serialRx_full {b : Byte} {s : State} (hv : s.cfg.valid = true) (hfull : s.qCount = queueCap) :
    exec (.serialRx b) s = .next (transmit Condition.queueFull.code s) := by
  rw [exec_serialRx_eq b hv, receive_full hfull]
  rfl

/-- The state after the bytes of a list, first to last, on a queue with room for them. -/
def receivedAll (bs : List Byte) (s : State) : State := bs.foldl (fun t b => received b t) s

@[simp] theorem receivedAll_nil (s : State) : receivedAll [] s = s := rfl
@[simp] theorem receivedAll_cons (b : Byte) (bs : List Byte) (s : State) :
    receivedAll (b :: bs) s = receivedAll bs (received b s) := rfl

theorem receivedAll_cfg (bs : List Byte) (s : State) : (receivedAll bs s).cfg = s.cfg := by
  induction bs generalizing s with
  | nil => rfl
  | cons b bs ih => exact ih (received b s)

theorem receivedAll_qWr (bs : List Byte) (s : State) : (receivedAll bs s).qWr = s.qWr + bs.length := by
  induction bs generalizing s with
  | nil => rfl
  | cons b bs ih => rw [receivedAll_cons, ih, received_qWr, List.length_cons]; omega

theorem receivedAll_qCount (bs : List Byte) (s : State) : (receivedAll bs s).qCount = s.qCount + bs.length := by
  induction bs generalizing s with
  | nil => rfl
  | cons b bs ih => rw [receivedAll_cons, ih, received_qCount, List.length_cons]; omega

theorem receivedAll_tx (bs : List Byte) (s : State) : (receivedAll bs s).tx = s.tx ++ bs.map echoOf := by
  induction bs generalizing s with
  | nil => simp
  | cons b bs ih => simp [ih]

/-- Bytes received later leave the entries below the write cursor alone. -/
theorem receivedAll_read_below (bs : List Byte) {s : State} {j : Nat} (hj : j < s.qWr) :
    Memory.read (receivedAll bs s).qMem j = Memory.read s.qMem j := by
  induction bs generalizing s with
  | nil => rfl
  | cons b bs ih =>
    rw [receivedAll_cons, ih (Nat.lt_succ_of_lt hj), received_qMem, Memory.read_write_other _ _ _ _ hj.ne]

/-- The `j`-th byte received is the `j`-th entry from the write cursor on. -/
theorem receivedAll_read (bs : List Byte) (s : State) {j : Nat} (hj : j < bs.length) :
    Memory.read (receivedAll bs s).qMem (s.qWr + j) = bs[j]?.map fun b => enc (commandOf b) := by
  induction bs generalizing s j with
  | nil => exact absurd hj (Nat.not_lt_zero j)
  | cons b bs ih =>
    rw [receivedAll_cons]
    cases j with
    | zero =>
      rw [Nat.add_zero, receivedAll_read_below bs (Nat.lt_succ_self s.qWr), received_qMem, Memory.read_write_same]
      rfl
    | succ j =>
      have hidx : s.qWr + (j + 1) = (received b s).qWr + j := by rw [received_qWr]; omega
      rw [hidx, ih _ (Nat.lt_of_succ_lt_succ hj), List.getElem?_cons_succ]

/-- R150 for any bytes a queue has room for. -/
theorem execAll_serialRx (bs : List Byte) {s : State} (hv : s.cfg.valid = true) (hwr : s.qWr = s.qCount)
    (hroom : s.qCount + bs.length ≤ queueCap) : execAll (bs.map .serialRx) s = .next (receivedAll bs s) := by
  induction bs generalizing s with
  | nil => rfl
  | cons b bs ih =>
    rw [List.length_cons] at hroom
    have hstep : exec (.serialRx b) s = .next (received b s) := exec_serialRx_received hv (by omega) (by omega)
    simp only [List.map_cons, execAll, hstep, receivedAll_cons]
    exact ih hv (congrArg (· + 1) hwr) (by rw [received_qCount]; omega)

/-- Settles O39: the appends give `receivedAll`, whose entries and replies are those of the bytes, and which is full. -/
theorem queueHoldsExactly1024 : Obligations.QueueHoldsExactly1024 := by
  intro s bs b hv hcount hwr hlen
  have hfull : (receivedAll bs s).qCount = 1024 := by rw [receivedAll_qCount, hcount, hlen]
  refine ⟨receivedAll bs s, ?_, hfull, ?_, fun j hj => ?_, receivedAll_tx bs s, ?_⟩
  · exact execAll_serialRx bs hv (hwr.trans hcount.symm) (by rw [hcount, hlen]; exact le_refl 1024)
  · rw [receivedAll_qWr, hwr, hlen]
  · have hread := receivedAll_read bs s (hlen ▸ hj)
    rwa [hwr, Nat.zero_add] at hread
  · exact exec_serialRx_full (receivedAll_cfg bs s ▸ hv) hfull

/-! ### Where an operation that finds nothing stops -/

theorem exec_playbackStep_eq {s : State} (hv : s.cfg.valid = true) : exec .playbackStep s = finish (playback s) :=
  configured_of_valid hv _

theorem exec_playbackStep_deadEntry {s : State} (hv : s.cfg.valid = true) (h0 : s.qCount ≠ 0)
    (hdead : s.qCount ≤ s.qRd ∨ Memory.read s.qMem s.qRd = none) : exec .playbackStep s = .refused .deadEntry := by
  rw [exec_playbackStep_eq hv, playback_eq, if_neg h0, commandAtCursor, memRead_deadEntry hdead]
  rfl

theorem exec_playbackStep_badCommandCode {s : State} {v : Byte} (hv : s.cfg.valid = true) (hlive : s.qRd < s.qCount)
    (hread : Memory.read s.qMem s.qRd = some v) (hcode : 5 < v.toNat) :
    exec .playbackStep s = .refused .badCommandCode := by
  have hcmd : commandAtCursor s = .error (.refused .badCommandCode) := by
    rw [commandAtCursor, memRead_ok hlive hread]
    exact dec_badCommandCode hcode
  rw [exec_playbackStep_eq hv, playback_eq, if_neg (Nat.ne_zero_of_lt hlive), hcmd]
  rfl

theorem exec_serialRx_noSuchEntry {s : State} (b : Byte) (hv : s.cfg.valid = true) (hroom : s.qCount ≠ queueCap)
    (hw : queueCap ≤ s.qWr) : exec (.serialRx b) s = .fault .noSuchEntry := by
  rw [exec_serialRx_eq b hv, receive_noSuchEntry hroom hw]
  rfl

theorem exec_btnEdge_noSuchGate {s : State} {k : BitVec 2} (hv : s.cfg.valid = true)
    (hg : s.gates.length ≤ s.cfg.gateOf.of k) : exec (.btnEdge k) s = .refused .noSuchGate := by
  show execBtnEdge k s = _
  rw [execBtnEdge, configured_of_valid hv, List.getElem?_eq_none hg]

theorem exec_gateTimeout_noSuchGate {s : State} {g : BitVec 2} (hv : s.cfg.valid = true)
    (hg : s.gates.length ≤ g.toNat) : exec (.gateTimeout g) s = .refused .noSuchGate := by
  show execGateTimeout g s = _
  rw [execGateTimeout, configured_of_valid hv, List.getElem?_eq_none hg]

theorem exec_cmdInvalid_wrongByteClass {s : State} {b : Byte} (hv : s.cfg.valid = true) (hb : inAlphabet b = true) :
    exec (.cmdInvalid b) s = .refused .wrongByteClass := by
  show execCmdInvalid b s = _
  rw [execCmdInvalid, configured_of_valid hv, if_pos hb]

/-- Settles O46. -/
theorem whatNoRuleReachesStopsByName : Obligations.WhatNoRuleReachesStopsByName := by
  intro s hv
  exact ⟨exec_playbackStep_deadEntry hv, fun v => exec_playbackStep_badCommandCode hv,
    fun b => exec_serialRx_noSuchEntry b hv, fun k => exec_btnEdge_noSuchGate hv,
    fun g => exec_gateTimeout_noSuchGate hv, fun b => exec_cmdInvalid_wrongByteClass hv⟩

end Sys2Proof.Machine
end

section
/-! PROOFS. Encoding (30_encoding.md): the decoder and the encoder invert each other (R80 to R82), the decoder accepts
the rows of the opcode table (R93), and what a step does with what it decodes (R16, R89).

The decoder treats all ten codes alike: no bit above the width of the code's fields, then the operation the fields name.
`decodeEvent_eq_ok_iff` says this once, with the width and the operation as functions of the code; the table rows and
the encoder are each compared with it. -/

namespace Sys2Proof

/-! ### Fields of a word -/

theorem slice_lt (w : BitVec 64) (hi lo : Nat) : slice w hi lo < 2 ^ (hi + 1 - lo) := Nat.mod_lt _ (Nat.two_pow_pos _)

theorem slice_opcode (w : BitVec 64) : slice w 3 0 = w.toNat % 2 ^ 4 := by
  rw [slice, Nat.pow_zero, Nat.div_one]

theorem slice_ofNat {m : Nat} (h : m < 2 ^ 64) (hi lo : Nat) :
    slice (BitVec.ofNat 64 m) hi lo = m / 2 ^ lo % 2 ^ (hi + 1 - lo) := by
  rw [slice, BitVec.toNat_ofNat, Nat.mod_eq_of_lt h]

theorem zeroFrom_iff (k : Nat) (w : BitVec 64) : zeroFrom k w = true ↔ w.toNat / 2 ^ k = 0 := decide_eq_true_iff

theorem zeroFrom_iff_lt (k : Nat) (w : BitVec 64) : zeroFrom k w = true ↔ w.toNat < 2 ^ k := by
  rw [zeroFrom_iff, Nat.div_eq_zero_iff_lt (Nat.two_pow_pos k)]

theorem checked_eq_ok_iff {k : Nat} {w : BitVec 64} {i j : Instr} :
    checked k w i = .ok j ↔ zeroFrom k w = true ∧ i = j := by
  unfold checked
  split <;> simp [*]

theorem axisBit_axisOfBit {m : Nat} (h : m < 2) : axisBit (axisOfBit m) = m := by
  interval_cases m <;> rfl

theorem toNat_decide_eq_one {m : Nat} (h : m < 2) : (decide (m = 1)).toNat = m := by
  interval_cases m <;> rfl

theorem axisBit_lt (a : AxisId) : axisBit a < 2 := by cases a <;> decide

/-! ### The event decoder, for all codes at once -/

/-- The bits the operation of a code names: its code and its fields (R81). -/
def eventWidth : Nat → Nat
  | 2 | 6 | 8 => 6
  | 3 => 12
  | 4 => 52
  | 5 => 5
  | _ => 4

/-- The operation of a code, its operands read from the fields of a word (R81). -/
def eventOperation (w : BitVec 64) : Nat → Instr
  | 0 => .reset
  | 1 => .tick
  | 2 => .btnEdge (BitVec.ofNat 2 (slice w 5 4))
  | 3 => .serialRx (BitVec.ofNat 8 (slice w 11 4))
  | 4 => .sample (BitVec.ofNat 12 (slice w 15 4)) (BitVec.ofNat 12 (slice w 27 16)) (BitVec.ofNat 12 (slice w 39 28))
      (BitVec.ofNat 12 (slice w 51 40))
  | 5 => .pidStep (axisOfBit (slice w 4 4))
  | 6 => .pwmStep (axisOfBit (slice w 4 4)) (decide (slice w 5 5 = 1))
  | 7 => .aoutStep
  | 8 => .gateTimeout (BitVec.ofNat 2 (slice w 5 4))
  | _ => .playbackStep

theorem decodeEvent_eq (n : Nat) (w : BitVec 64) :
    decodeEvent n w =
      if 10 ≤ slice w 3 0 then .error .reservedOpcode
      else if slice w 3 0 = 8 ∧ n ≤ slice w 5 4 then .error .noGate
      else checked (eventWidth (slice w 3 0)) w (eventOperation w (slice w 3 0)) := by
  unfold decodeEvent
  split
  case h_9 h8 =>
    by_cases hg : slice w 5 4 < n
    · simp [h8, hg, eventWidth, eventOperation]
    · simp [h8, hg, Nat.le_of_not_lt hg]
  case h_11 =>
    have hc : 10 ≤ slice w 3 0 := by grind
    simp [hc]
  all_goals simp [*, eventWidth, eventOperation]

/-- An event word is decoded when its code is one of the ten, no bit above the code's fields is set, and the gate of a
GATE_TIMEOUT exists; then it encodes the operation its fields name. -/
theorem decodeEvent_eq_ok_iff {n : Nat} {w : BitVec 64} {i : Instr} :
    decodeEvent n w = .ok i ↔ slice w 3 0 < 10 ∧ (slice w 3 0 = 8 → slice w 5 4 < n) ∧
      zeroFrom (eventWidth (slice w 3 0)) w = true ∧ eventOperation w (slice w 3 0) = i := by
  rw [decodeEvent_eq]
  split
  case isTrue hc => simp [Nat.not_lt.mpr hc]
  case isFalse hc =>
    split
    case isTrue hg => simp [hg.1, Nat.not_lt.mpr hg.2]
    case isFalse hg =>
      rw [checked_eq_ok_iff]
      have hgate : slice w 3 0 = 8 → slice w 5 4 < n := fun h8 => Nat.lt_of_not_le fun hle => hg ⟨h8, hle⟩
      exact ⟨fun h => ⟨Nat.lt_of_not_le hc, hgate, h⟩, fun ⟨_, _, h⟩ => h⟩

/-! ### The table rows -/

/-- The mask of an event row: the code, and every bit from `k` up (R93). -/
def eventMask (k : Nat) : BitVec 64 := (BitVec.allOnes 64 <<< k) ||| 15

theorem eventRows_eq : eventRows = (List.range 10).map fun c => ⟨BitVec.ofNat 64 c, eventMask (eventWidth c)⟩ := by
  decide

theorem eventMask_getLsbD {k j : Nat} (hj : j < 64) : (eventMask k).getLsbD j = (decide (k ≤ j) || decide (j < 4)) := by
  have h15 : ∀ j < 64, (15 : BitVec 64).getLsbD j = decide (j < 4) := by decide
  simp only [eventMask, BitVec.getLsbD_or, BitVec.getLsbD_shiftLeft, BitVec.getLsbD_allOnes, h15 j hj]
  grind

/-- Under an event mask a word keeps its code and the bits its fields do not cover. -/
theorem toNat_and_eventMask {k : Nat} (hk : 4 ≤ k) (w : BitVec 64) :
    (w &&& eventMask k).toNat = 2 ^ k * (w.toNat / 2 ^ k) + w.toNat % 2 ^ 4 := by
  have hlt : w.toNat % 2 ^ 4 < 2 ^ k := (Nat.mod_lt _ (by decide)).trans_le (Nat.pow_le_pow_right (by decide) hk)
  rw [Nat.two_pow_add_eq_or_of_lt hlt]
  refine Nat.eq_of_testBit_eq fun j => ?_
  rw [BitVec.testBit_toNat, BitVec.getLsbD_and, Nat.testBit_or, Nat.testBit_two_pow_mul, Nat.testBit_div_two_pow,
    Nat.testBit_mod_two_pow]
  by_cases hj : j < 64
  · rw [eventMask_getLsbD hj]
    by_cases hkj : k ≤ j
    · simp [hkj, BitVec.testBit_toNat]
    · simp [hkj, BitVec.testBit_toNat, Bool.and_comm]
  · have hw : w.getLsbD j = false := BitVec.getLsbD_of_ge w j (Nat.le_of_not_lt hj)
    by_cases hkj : k ≤ j <;> simp [hkj, BitVec.testBit_toNat, hw]

theorem four_le_eventWidth (c : Nat) : 4 ≤ eventWidth c := by
  unfold eventWidth
  split <;> decide

/-- A word selects a row exactly when it has the row's code and no bit above the code's fields. -/
theorem selects_eventRow_iff {c : Nat} (hc : c < 10) (w : BitVec 64) :
    Row.selects ⟨BitVec.ofNat 64 c, eventMask (eventWidth c)⟩ w = true ↔
      slice w 3 0 = c ∧ zeroFrom (eventWidth c) w = true := by
  have hk := four_le_eventWidth c
  rw [Row.selects, decide_eq_true_iff, ← BitVec.toNat_inj, toNat_and_eventMask hk, BitVec.toNat_ofNat,
    Nat.mod_eq_of_lt (hc.trans (by decide)), zeroFrom_iff, slice_opcode]
  have hpow : 2 ^ 4 ≤ 2 ^ eventWidth c := Nat.pow_le_pow_right (by decide) hk
  constructor
  · intro h
    have hz : w.toNat / 2 ^ eventWidth c = 0 := by
      by_contra h0
      have := Nat.le_mul_of_pos_right (2 ^ eventWidth c) (Nat.pos_of_ne_zero h0)
      omega
    rw [hz, Nat.mul_zero, Nat.zero_add] at h
    exact ⟨h, hz⟩
  · rintro ⟨hm, hz⟩
    rw [hz, hm, Nat.mul_zero, Nat.zero_add]

/-- Settles O4: both sides ask for one of the ten codes, no bit above the code's fields, and a gate that exists. -/
theorem eventWordsAreTheTableRows : Obligations.EventWordsAreTheTableRows := by
  intro n w
  simp only [decodeEvent_eq_ok_iff, eventRows_eq, List.mem_map, List.mem_range]
  have hgate : ∀ {c : Nat}, c < 10 → (BitVec.ofNat 64 c = 8 ↔ c = 8) := by decide
  constructor
  · rintro ⟨i, hc, hg, hz, -⟩
    exact ⟨_, ⟨_, hc, rfl⟩, (selects_eventRow_iff hc w).mpr ⟨rfl, hz⟩, fun h8 => hg ((hgate hc).mp h8)⟩
  · rintro ⟨_, ⟨c, hc, rfl⟩, hsel, hg⟩
    obtain ⟨rfl, hz⟩ := (selects_eventRow_iff hc w).mp hsel
    exact ⟨_, hc, fun h8 => hg ((hgate hc).mpr h8), hz, rfl⟩

/-! ### Encoding -/

theorem eventNumber_lt (i : Instr) : eventNumber i < 2 ^ 64 := by
  cases i with
  | pidStep a => have := axisBit_lt a; simp only [eventNumber]; omega
  | pwmStep a en => have := axisBit_lt a; have := en.toNat_lt; simp only [eventNumber]; omega
  | _ => simp only [eventNumber]; omega

/-- The decoder gives an operation back when each field of its number is the operand it encodes. -/
theorem decodeEvent_of_fields {n : Nat} {i : Instr} (c : Nat) (hcode : eventNumber i % 2 ^ 4 = c) (hc : c < 10)
    (hgate : c = 8 → eventNumber i / 2 ^ 4 % 2 ^ 2 < n) (hwidth : eventNumber i < 2 ^ eventWidth c)
    (hop : eventOperation (BitVec.ofNat 64 (eventNumber i)) c = i) :
    decodeEvent n (BitVec.ofNat 64 (eventNumber i)) = .ok i := by
  have hlt := eventNumber_lt i
  have hslice : slice (BitVec.ofNat 64 (eventNumber i)) 3 0 = c := by
    rw [slice_ofNat hlt, Nat.pow_zero, Nat.div_one, hcode]
  rw [decodeEvent_eq_ok_iff, hslice, slice_ofNat hlt, zeroFrom_iff_lt, BitVec.toNat_ofNat, Nat.mod_eq_of_lt hlt]
  exact ⟨hc, hgate, hwidth, hop⟩

theorem ofNat_slice_eventNumber (i : Instr) {hi lo k : Nat} {x : BitVec k}
    (h : eventNumber i / 2 ^ lo % 2 ^ (hi + 1 - lo) = x.toNat) :
    BitVec.ofNat k (slice (BitVec.ofNat 64 (eventNumber i)) hi lo) = x := by
  rw [slice_ofNat (eventNumber_lt i), h, BitVec.ofNat_toNat, BitVec.setWidth_eq]

/-- Every operand fits its field, so the number of an event operation decodes to it (R81). -/
theorem decodeEvent_eventNumber {n : Nat} {i : Instr} (hs : i.isSerial = false) (hwf : i.wf n = true) :
    decodeEvent n (BitVec.ofNat 64 (eventNumber i)) = .ok i := by
  cases i with
  | reset => exact decodeEvent_of_fields 0 rfl (by decide) nofun (by decide) rfl
  | tick => exact decodeEvent_of_fields 1 rfl (by decide) nofun (by decide) rfl
  | btnEdge k =>
    refine decodeEvent_of_fields 2 ?_ (by decide) nofun ?_
      (congrArg Instr.btnEdge (ofNat_slice_eventNumber _ ?_)) <;> simp only [eventNumber, eventWidth] <;> omega
  | serialRx b =>
    refine decodeEvent_of_fields 3 ?_ (by decide) nofun ?_
      (congrArg Instr.serialRx (ofNat_slice_eventNumber _ ?_)) <;> simp only [eventNumber, eventWidth] <;> omega
  | sample a0 a1 a2 a3 =>
    refine decodeEvent_of_fields 4 ?_ (by decide) nofun ?_ ?_
    · simp only [eventNumber]; omega
    · simp only [eventNumber, eventWidth]; omega
    · simp only [eventOperation, Instr.sample.injEq]
      refine ⟨ofNat_slice_eventNumber _ ?_, ofNat_slice_eventNumber _ ?_, ofNat_slice_eventNumber _ ?_,
        ofNat_slice_eventNumber _ ?_⟩ <;> simp only [eventNumber] <;> omega
  | pidStep a => cases a <;> exact decodeEvent_of_fields 5 rfl (by decide) nofun (by decide) rfl
  | pwmStep a en =>
    cases a <;> cases en <;> exact decodeEvent_of_fields 6 rfl (by decide) nofun (by decide) rfl
  | aoutStep => exact decodeEvent_of_fields 7 rfl (by decide) nofun (by decide) rfl
  | gateTimeout g =>
    have hg : g.toNat < n := of_decide_eq_true hwf
    refine decodeEvent_of_fields 8 ?_ (by decide) (fun _ => ?_) ?_
      (congrArg Instr.gateTimeout (ofNat_slice_eventNumber _ ?_)) <;> simp only [eventNumber, eventWidth] <;> omega
  | playbackStep => exact decodeEvent_of_fields 9 rfl (by decide) nofun (by decide) rfl
  | cmdNomove | cmdRight | cmdLeft | cmdUp | cmdDown | cmdEnd | cmdInvalid => cases hs

/-- The fields of an operation are put back where the decoder read them. -/
theorem eventNumber_eventOperation {w : BitVec 64} (hc : slice w 3 0 < 10)
    (hz : zeroFrom (eventWidth (slice w 3 0)) w = true) :
    eventNumber (eventOperation w (slice w 3 0)) = w.toNat := by
  rw [zeroFrom_iff_lt] at hz
  have haxis := axisBit_axisOfBit (slice_lt w 4 4)
  have hen := toNat_decide_eq_one (slice_lt w 5 5)
  simp only [slice] at haxis hen
  have hcode := slice_opcode w
  generalize slice w 3 0 = c at hz hc hcode
  interval_cases c <;> simp only [eventWidth] at hz <;>
    simp only [eventNumber, eventOperation, BitVec.toNat_ofNat, haxis, hen, slice] <;> omega

theorem eventOperation_isSerial (w : BitVec 64) (c : Nat) : (eventOperation w c).isSerial = false := by
  unfold eventOperation
  split <;> rfl

theorem eventOperation_wf {n c : Nat} {w : BitVec 64} (hgate : c = 8 → slice w 5 4 < n) :
    (eventOperation w c).wf n = true := by
  unfold eventOperation
  split
  case h_9 =>
    have hlt : slice w 5 4 < 2 ^ 2 := slice_lt w 5 4
    rw [Instr.wf, BitVec.toNat_ofNat, Nat.mod_eq_of_lt hlt]
    exact decide_eq_true (hgate rfl)
  all_goals rfl

/-- What an event word decodes to is an operation of the configuration, and the word is its number. -/
theorem eventNumber_of_decodeEvent {n : Nat} {w : BitVec 64} {i : Instr} (h : decodeEvent n w = .ok i) :
    i.isSerial = false ∧ i.wf n = true ∧ BitVec.ofNat 64 (eventNumber i) = w := by
  obtain ⟨hc, hg, hz, rfl⟩ := decodeEvent_eq_ok_iff.mp h
  refine ⟨eventOperation_isSerial w _, eventOperation_wf hg, ?_⟩
  rw [eventNumber_eventOperation hc hz, BitVec.ofNat_toNat, BitVec.setWidth_eq]

/-! ### Bytes of the receive port -/

theorem inAlphabet_iff (b : Byte) :
    inAlphabet b = true ↔ b = 0x30 ∨ b = 0x31 ∨ b = 0x32 ∨ b = 0x33 ∨ b = 0x34 ∨ b = 0x0D := by
  simp only [inAlphabet, Bool.or_eq_true, decide_eq_true_iff, or_assoc]

theorem decodeSerial_of_not_inAlphabet {b : Byte} (h : inAlphabet b = false) : decodeSerial b = .cmdInvalid b := by
  have hne : ¬ (b = 0x30 ∨ b = 0x31 ∨ b = 0x32 ∨ b = 0x33 ∨ b = 0x34 ∨ b = 0x0D) := by
    rw [← inAlphabet_iff, h]
    exact Bool.false_ne_true
  simp only [← BitVec.toNat_inj, not_or] at hne
  obtain ⟨h0, h1, h2, h3, h4, hend⟩ := hne
  unfold decodeSerial
  split
  case h_7 => rfl
  all_goals contradiction

/-- The class of a byte is well formed and encodes to the byte. -/
theorem encode_decodeSerial (n : Nat) (b : Byte) :
    (decodeSerial b).wf n = true ∧ encode (decodeSerial b) = .serial b := by
  cases hb : inAlphabet b with
  | true => rcases (inAlphabet_iff b).mp hb with rfl | rfl | rfl | rfl | rfl | rfl <;> exact ⟨rfl, rfl⟩
  | false =>
    rw [decodeSerial_of_not_inAlphabet hb]
    exact ⟨by rw [Instr.wf, hb]; rfl, congrArg Stimulus.serial (BitVec.eq_of_toNat_eq (by simp [eventNumber]))⟩

/-- The number of a serial class is the byte of that class (R82). -/
theorem decodeSerial_eventNumber {n : Nat} {i : Instr} (hs : i.isSerial = true) (hwf : i.wf n = true) :
    decodeSerial (BitVec.ofNat 8 (eventNumber i)) = i := by
  cases i with
  | cmdNomove | cmdRight | cmdLeft | cmdUp | cmdDown | cmdEnd => rfl
  | cmdInvalid b =>
    rw [eventNumber, BitVec.ofNat_toNat, BitVec.setWidth_eq]
    exact decodeSerial_of_not_inAlphabet (by simpa [Instr.wf] using hwf)
  | _ => cases hs

/-! ### Stimuli -/

theorem decode_event_eq_ok_iff {n : Nat} {w : BitVec 64} {i : Instr} :
    decode n (.event w) = .ok i ↔ decodeEvent n w = .ok i ∧ i.isMicro = false := by
  rw [decode]
  cases decodeEvent n w with
  | error e => simp
  | ok j => dsimp only; split <;> grind

theorem decode_tickPart_eq_ok_iff {n : Nat} {w : BitVec 64} {i : Instr} :
    decode n (.tickPart w) = .ok i ↔ decodeEvent n w = .ok i ∧ i.isMicro = true := by
  rw [decode]
  cases decodeEvent n w with
  | error e => simp
  | ok j => dsimp only; split <;> grind

theorem encode_eq_event {i : Instr} (hs : i.isSerial = false) (hm : i.isMicro = false) :
    encode i = .event (BitVec.ofNat 64 (eventNumber i)) := by simp [encode, hs, hm]

theorem encode_eq_tickPart {i : Instr} (hs : i.isSerial = false) (hm : i.isMicro = true) :
    encode i = .tickPart (BitVec.ofNat 64 (eventNumber i)) := by simp [encode, hs, hm]

/-- Settles O2: a serial class goes out as its byte and any other operation as its number, and each is read back. -/
theorem decodeInvertsEncode : Obligations.DecodeInvertsEncode := by
  intro n i hwf
  cases hs : i.isSerial with
  | true =>
    rw [encode, if_pos hs]
    exact congrArg Except.ok (decodeSerial_eventNumber hs hwf)
  | false =>
    have hdec := decodeEvent_eventNumber hs hwf
    cases hm : i.isMicro with
    | true =>
      rw [encode_eq_tickPart hs hm]
      exact decode_tickPart_eq_ok_iff.mpr ⟨hdec, hm⟩
    | false =>
      rw [encode_eq_event hs hm]
      exact decode_event_eq_ok_iff.mpr ⟨hdec, hm⟩

/-- Settles O3: what an event word decodes to has that word as its number, and the class of a byte is sent as it. -/
theorem encodeInvertsDecode : Obligations.EncodeInvertsDecode := by
  intro n x i h
  cases x with
  | event w =>
    obtain ⟨hdec, hm⟩ := decode_event_eq_ok_iff.mp h
    obtain ⟨hs, hwf, rfl⟩ := eventNumber_of_decodeEvent hdec
    exact ⟨hwf, encode_eq_event hs hm⟩
  | serial b =>
    cases h
    exact encode_decodeSerial n b
  | tickPart w =>
    obtain ⟨hdec, hm⟩ := decode_tickPart_eq_ok_iff.mp h
    obtain ⟨hs, hwf, rfl⟩ := eventNumber_of_decodeEvent hdec
    exact ⟨hwf, encode_eq_tickPart hs hm⟩

/-- Settles O1. -/
theorem tableWordsDecode : Obligations.TableWordsDecode := by
  unfold Obligations.TableWordsDecode
  decide

end Sys2Proof

namespace Sys2Proof.Machine

/-! ### The step -/

/-- Settles O37: in every class the byte gives the command and the reply of the class, and outside the alphabet those of
CMD_INVALID. -/
theorem byteClassesAgreeWithSerialRx : Obligations.ByteClassesAgreeWithSerialRx := by
  intro s b
  cases hb : inAlphabet b with
  | true => rcases (inAlphabet_iff b).mp hb with rfl | rfl | rfl | rfl | rfl | rfl <;> rfl
  | false =>
    obtain ⟨hcmd, hecho⟩ := commandOf_of_not_inAlphabet hb
    rw [decodeSerial_of_not_inAlphabet hb]
    show execCmdInvalid b s = execSerialRx b s
    simp [execCmdInvalid, execSerialRx, hb, hcmd, hecho]

/-- Settles O47. -/
theorem onlyTheStepTakesAStimulus : Obligations.OnlyTheStepTakesAStimulus := by
  refine ⟨fun i s t h => exec_env h, fun s t h => ?_⟩
  obtain ⟨henv, rfl⟩ | ⟨x, rest, i, henv, -, hexec⟩ := step_cases h
  · rw [henv, List.tail_nil]
  · rw [exec_env hexec, henv, List.tail_cons]

/-- Settles O6. -/
theorem stepRefusesWhatEncodesNothing : Obligations.StepRefusesWhatEncodesNothing :=
  ⟨fun _ _ _ _ henv hdec => step_of_undecodable henv hdec, fun s henv => by rw [step, fetch_nil s henv]⟩

theorem eventOperation_isMicro {w : BitVec 64} {c : Nat} (hc : c = 8 ∨ c = 9) :
    (eventOperation w c).isMicro = true := by
  obtain rfl | rfl := hc <;> rfl

/-- Settles O7: were such a word decoded, it would encode a micro-operation, which no event word of a run does. -/
theorem microOperationsAreRefusedInARun : Obligations.MicroOperationsAreRefusedInARun := by
  intro s w rest henv hcode
  cases hdec : decode s.cfg.nGates (.event w) with
  | error e => exact ⟨e, step_of_undecodable henv hdec⟩
  | ok i =>
    obtain ⟨hev, hm⟩ := decode_event_eq_ok_iff.mp hdec
    obtain ⟨-, -, -, rfl⟩ := decodeEvent_eq_ok_iff.mp hev
    rw [eventOperation_isMicro hcode] at hm
    cases hm

/-- Settles O8. -/
theorem fetchedTableWordRuns : Obligations.FetchedTableWordRuns := by
  intro s nbits w x i hx hdec
  have hfetch : s.withFetchWord nbits w = present x s := by rw [State.withFetchWord, hx]
  rw [hfetch]
  exact step_of_decode (present_env s x) hdec

end Sys2Proof.Machine
end

section
/-! PROOFS. Sampling and the PID step (40_pid.md): the source SAMPLE takes (R100, R101), the control law of PID_STEP
(R103), the direction as the sign of the reading (R108, D7) and the error as the negated reading (R111, D6). -/

namespace Sys2Proof.Machine

open Sys2Proof.F64

/-! ### The source of a sample (R100, R101) -/

theorem sampleSource_sensorTracking {s : State} (h : s.mode = .sensorTracking) (v : Channels) :
    sampleSource s v = v := by rw [sampleSource, h]

theorem sampleSource_synthetic {s : State} (h : s.mode ≠ .sensorTracking) (v : Channels) :
    sampleSource s v = s.syn := by
  cases hm : s.mode with
  | sensorTracking => exact absurd hm h
  | scripted => rw [sampleSource, hm]
  | replay => rw [sampleSource, hm]

/-- SAMPLE completes with the two channel differences of the selected source. -/
theorem exec_sample_of_source {s : State} {c0 c1 c2 c3 : BitVec 12} {v : Channels} (hv : s.cfg.valid = true)
    (hsrc : sampleSource s ⟨c0, c1, c2, c3⟩ = v) :
    exec (.sample c0 c1 c2 c3) s = .next { s with
      ax0 := { s.ax0 with measured := channelDiff v.c0 v.c1 }
      ax1 := { s.ax1 with measured := channelDiff v.c2 v.c3 } } := by
  subst hsrc
  exact configured_of_valid hv _

/-- Settles O16: the mode selects the source, and the operation writes its differences. -/
theorem sampleTakesTheSelectedSource : Obligations.SampleTakesTheSelectedSource := by
  intro s c0 c1 c2 c3 hv
  refine ⟨fun hm => ?_, fun hm => ?_⟩
  · rw [exec_sample_of_source hv (sampleSource_sensorTracking hm _), channelDiff, channelDiff]
  · rw [exec_sample_of_source hv (sampleSource_synthetic hm _), channelDiff, channelDiff]

/-! ### The control law (R103) -/

theorem exec_pidStep_of_valid {s : State} (a : AxisId) (hv : s.cfg.valid = true) :
    exec (.pidStep a) s = .next (s.setAx a (pidUpdate s.cfg (s.ax a))) := configured_of_valid hv _

/-- Settles O17: the words of R103 are those `pidUpdate` writes, each by its definition. -/
theorem pidStepFollowsTheControlLaw : Obligations.PidStepFollowsTheControlLaw := by
  intro s a hv
  refine ⟨pidError (s.ax a), fmul (pidError (s.ax a)) s.cfg.dt, pidAccumulated s.cfg (s.ax a),
    pidIntegral s.cfg (s.ax a), pidDerivative s.cfg (s.ax a), pidOutput s.cfg (s.ax a), windup s.cfg,
    directionOf (s.ax a).measured, ?_, ?_, rfl, ?_, ?_, ?_, ?_, ?_, exec_pidStep_of_valid a hv⟩
  · rw [windup]
  · rw [pidError]
  · rw [pidAccumulated]
  · rw [pidIntegral, clampIntegral]
  · rw [pidDerivative]
  · rw [pidOutput]
  · rw [directionOf]

/-! ### The direction (R108, D7) -/

theorem fgt_ofInt_zero_iff {n : Int} (hn : n.natAbs < 2 ^ 53) : fgt (ofInt n) zero = true ↔ 0 < n := by
  have hone : (0 : Int) < one1074 := by exact_mod_cast one1074_pos
  rw [fgt, flt_iff zero_isFinite (ofInt_exact hn).1, zero_scaled, ofInt_scaled hn]
  exact mul_pos_iff_of_pos_right hone

theorem directionOf_eq_forward_iff (x : F64) : directionOf x = .forward ↔ fgt x zero = true := by
  unfold directionOf
  split <;> simp [*]

/-- Settles O19: the direction is that of the reading, and the sign of a converted integer is its own. -/
theorem directionIsTheSignOfTheReading : Obligations.DirectionIsTheSignOfTheReading := by
  intro s t a n hlo hhi hmeas he
  obtain ⟨r, rfl, rfl⟩ := exec_pidStep_inv he
  rw [State.ax_setAx_same, pidUpdate_direction, hmeas, directionOf_eq_forward_iff, fgt_ofInt_zero_iff (by omega)]

/-! ### The error (R108, R111, D6) -/

theorem pidError_of_reading {r : AxisRegs} {n : Int} (hn : n.natAbs < 2 ^ 53) (hmeas : r.measured = ofInt n)
    (hset : r.setpoint = zero) : pidError r = ofInt (-n) := by
  rw [pidError, hset, hmeas, fsub_zero_ofInt hn]

/-- Settles O20: both registers take the error of the step, an exact difference. -/
theorem errorIsTheNegatedReading : Obligations.ErrorIsTheNegatedReading := by
  intro s t a n hlo hhi hmeas hset he
  obtain ⟨r, rfl, rfl⟩ := exec_pidStep_inv he
  have herr := pidError_of_reading (by omega) hmeas hset
  rw [State.ax_setAx_same, pidUpdate_error, pidUpdate_previousError]
  exact ⟨herr, herr⟩

end Sys2Proof.Machine
end

section
/-! PROOFS. The PWM duty generator (41_pwm.md): the pin latches PWM_STEP writes (R120), and the duty of the level over
one cycle (R122). -/

namespace Sys2Proof.Machine

/-! ### The pin latches (R120) -/

theorem exec_pwmStep_of_valid {s : State} (a : AxisId) (en : Bool) (hv : s.cfg.valid = true) :
    exec (.pwmStep a en) s = .next (s.setPin a (pinsOf s.cfg (s.ax a) en)) := configured_of_valid hv _

/-- Settles O24: the latches of R120 are those of `pinsOf`, each by its definition. -/
theorem pwmStepWritesThePins : Obligations.PwmStepWritesThePins := by
  intro s a en hv
  rw [exec_pwmStep_of_valid a en hv, pinsOf, pwmLevel, pwmThreshold, pwmUnit]

/-! ### The duty of a cycle (R122) -/

/-- A throttle in range is never on for more than the cycle, as the unit is truncated. -/
theorem pwmThreshold_le_cycle {c : Config} {throttle : Nat} (h : throttle ≤ c.maxThrottle) :
    pwmThreshold c throttle ≤ c.pwmCycleLen :=
  calc throttle * (c.pwmCycleLen / c.maxThrottle)
    _ ≤ c.maxThrottle * (c.pwmCycleLen / c.maxThrottle) := Nat.mul_le_mul_right _ h
    _ ≤ c.pwmCycleLen := Nat.mul_div_le _ _

/-- The level function of R122, through the step of an enabled axis. -/
theorem levelAtPhase_of_valid {s : State} (a : AxisId) (hv : s.cfg.valid = true) (p : Nat) :
    levelAtPhase s a p = decide (p < pwmThreshold s.cfg (s.ax a).throttle) := by
  unfold levelAtPhase
  rw [exec_pwmStep_of_valid a true (by rwa [State.setAx_cfg])]
  simp only [State.pin_setPin_same, State.setAx_cfg, State.ax_setAx_same, pinsOf, pwmLevel, Bool.true_and]

/-- The numbers of a range that lie below a bound in it are the lowest ones. -/
theorem filter_lt_range {n m : Nat} (h : m ≤ n) :
    (List.range n).filter (fun p => decide (p < m)) = List.range m := by
  rw [← List.Ico.zero_bot, ← List.Ico.zero_bot, List.Ico.filter_lt_of_ge h]

/-- Settles O25: the level is that of R122 at every phase, and the threshold lies in the cycle. -/
theorem onDurationOfACycle : Obligations.OnDurationOfACycle := by
  intro s a hv hthrottle
  have hle : pwmThreshold s.cfg (s.ax a).throttle ≤ s.cfg.pwmCycleLen := pwmThreshold_le_cycle hthrottle
  refine ⟨?_, hle⟩
  rw [funext (levelAtPhase_of_valid a hv), filter_lt_range hle, pwmThreshold, pwmUnit]

end Sys2Proof.Machine
end

section
/-! PROOFS. The debounce gate (42_debounce.md): an edge on an open and on a closed gate (R131, R132), the reopening
(R133), and the window of an accepted edge (R135). -/

namespace Sys2Proof.Machine

/-! ### An edge on an open and on a closed gate (R131, R132) -/

theorem exec_btnEdge_open {s : State} {k : BitVec 2} {g : Gate} (hv : s.cfg.valid = true)
    (hg : s.gates[s.cfg.gateOf.of k]? = some g) (hopen : g.isOpen = true) :
    exec (.btnEdge k) s = .next { buttonAction k s with
      gates := s.gates.set (s.cfg.gateOf.of k) ⟨false, s.cfg.debounceTicks⟩ } := by
  show execBtnEdge k s = _
  rw [execBtnEdge, configured_of_valid hv, hg]
  exact if_pos hopen

theorem exec_btnEdge_closed {s : State} {k : BitVec 2} {g : Gate} (hv : s.cfg.valid = true)
    (hg : s.gates[s.cfg.gateOf.of k]? = some g) (hclosed : g.isOpen = false) : exec (.btnEdge k) s = .next s := by
  show execBtnEdge k s = _
  rw [execBtnEdge, configured_of_valid hv, hg]
  exact if_neg (ne_true_of_eq_false hclosed)

/-- Settles O26: the two cases of the gate, each by its equation. -/
theorem buttonEdgeConsultsItsGate : Obligations.ButtonEdgeConsultsItsGate :=
  fun _ _ _ hv hg => ⟨exec_btnEdge_open hv hg, exec_btnEdge_closed hv hg⟩

/-- Settles O27, by induction on the edges: a dropped edge leaves the same closed gate to the next one. -/
theorem droppedEdgesLeaveNoTrace : Obligations.DroppedEdgesLeaveNoTrace := by
  intro s g x ks hv hg hclosed hgroup
  induction ks with
  | nil => rfl
  | cons k ks ih =>
    obtain ⟨hk, hks⟩ := List.forall_mem_cons.mp hgroup
    have hdrop : exec (.btnEdge k) s = .next s := exec_btnEdge_closed hv (hk ▸ hg) hclosed
    simp only [List.map_cons, execAll, hdrop]
    exact ih hks

/-! ### The reopening (R133) -/

/-- Settles O28: with a gate found, GATE_TIMEOUT is `Gate.timeout` on it. -/
theorem gateTimeoutReopensTheGate : Obligations.GateTimeoutReopensTheGate := by
  intro s g x hv hg
  show execGateTimeout g s = _
  rw [execGateTimeout, configured_of_valid hv, hg]
  rfl

/-! ### The window of an accepted edge (R135) -/

/-- A gate that closed for `ticks` ticks, `n` ticks later. -/
def Gate.inWindow (ticks n : Nat) : Gate := if n < ticks then ⟨false, ticks - n⟩ else ⟨true, 0⟩

theorem Gate.inWindow_zero {ticks : Nat} (h : 1 ≤ ticks) : Gate.inWindow ticks 0 = ⟨false, ticks⟩ := if_pos h

/-- The last tick of the window reopens the gate, one before it counts down, and one after it finds the gate open. -/
theorem Gate.tick_inWindow (ticks n : Nat) : (Gate.inWindow ticks n).tick = Gate.inWindow ticks (n + 1) := by
  rw [gate_tick_eq, Gate.inWindow, Gate.inWindow]
  obtain hbefore | hlast | hafter := Nat.lt_trichotomy (n + 1) ticks
  · have hcount : ticks - n ≠ 1 := by omega
    simp [hbefore, Nat.lt_of_succ_lt hbefore, hcount, Nat.sub_sub]
  · simp [← hlast]
  · simp [Nat.not_lt.mpr (Nat.le_of_lt_succ hafter), Nat.not_lt.mpr hafter.le]

theorem exec_tick_gates {s t : State} (h : exec .tick s = .next t) : t.gates = s.gates.map Gate.tick := by
  obtain ⟨u, -, rfl⟩ := exec_tick_inv h
  rfl

/-- A sequence that gives a next state, from the state its first operation leaves. -/
theorem execAll_cons_next {i : Instr} {is : List Instr} {s t : State} (h : execAll (i :: is) s = .next t) :
    ∃ u, exec i s = .next u ∧ execAll is u = .next t := by
  rw [execAll] at h
  split at h
  · exact ⟨_, ‹_›, h⟩
  · cases h
  · cases h

/-- `n` more ticks take a gate `n` ticks further in its window. -/
theorem inWindow_execAll_ticks {u t : State} {j ticks m : Nat} (n : Nat) (hu : u.gates[j]? = some (.inWindow ticks m))
    (h : execAll (List.replicate n .tick) u = .next t) : t.gates[j]? = some (.inWindow ticks (m + n)) := by
  induction n generalizing u m with
  | zero => cases h; exact hu
  | succ n ih =>
    obtain ⟨v, htick, hrest⟩ := execAll_cons_next h
    have hv : v.gates[j]? = some (.inWindow ticks (m + 1)) := by
      rw [exec_tick_gates htick, List.getElem?_map, hu, Option.map_some, Gate.tick_inWindow]
    rw [← Nat.succ_add_eq_add_succ]
    exact ih hv hrest

/-- Settles O29: the accepted edge puts its gate at the start of the window, and every tick takes it one further. -/
theorem debounceWindowLastsItsTicks : Obligations.DebounceWindowLastsItsTicks := by
  intro s u t k g n hg hopen hedge hticks
  have hv : s.cfg.valid = true := valid_of_exec hedge
  obtain ⟨-, -, hdb, -⟩ := Config.bounds hv
  have hu : u.gates[s.cfg.gateOf.of k]? = some (.inWindow s.cfg.debounceTicks 0) := by
    rw [exec_btnEdge_open hv hg hopen] at hedge
    cases hedge
    rw [Gate.inWindow_zero hdb]
    exact List.getElem?_set_self (List.getElem?_eq_some_iff.mp hg).1
  have ht := inWindow_execAll_ticks n hu hticks
  rwa [Nat.zero_add] at ht

end Sys2Proof.Machine
end

section
/-! PROOFS. The mode register file (43_mode.md): the action of each button on an accepted edge (R141 to R144), and the
graph of the modes (R145).

The mode is register 32. The frame rule of R51 leaves only the edges on buttons 0 and 1 as the operations that write it,
and the two toggles say along which arcs. -/

namespace Sys2Proof.Machine

/-! ### The actions (R141 to R144) -/

theorem buttonAction_joystick (s : State) : buttonAction 0 s = { s with mode := joystickToggle s.cfg s.mode } := rfl

theorem buttonAction_replay (s : State) : buttonAction 1 s = { s with mode := replayToggle s.mode } := rfl

theorem buttonAction_select (s : State) : buttonAction 2 s = { s with sel := otherAxis s.sel } := rfl

theorem buttonAction_fourth (s : State) : buttonAction 3 s = btn3Action s := rfl

theorem replayToggle_eq (m : Mode) : replayToggle m = if m = .replay then .sensorTracking else .replay := by
  cases m <;> rfl

theorem otherAxis_eq (a : AxisId) : otherAxis a = if a = .axis0 then .axis1 else .axis0 := by
  cases a <;> rfl

/-- Settles O30: the open gate runs `joystickToggle`, which is the table of R141. -/
theorem joystickToggleMovesTheMode : Obligations.JoystickToggleMovesTheMode := by
  intro s g hv hg hopen
  rw [exec_btnEdge_open (k := 0) hv hg hopen, buttonAction_joystick]
  rfl

/-- Settles O31: the open gate runs `replayToggle`. -/
theorem replayToggleMovesTheMode : Obligations.ReplayToggleMovesTheMode := by
  intro s g hv hg hopen
  rw [exec_btnEdge_open (k := 1) hv hg hopen, buttonAction_replay, replayToggle_eq]
  rfl

/-- Settles O32: the open gate runs `otherAxis` on the selector. -/
theorem outputSelectTogglesTheAxis : Obligations.OutputSelectTogglesTheAxis := by
  intro s g hv hg hopen
  rw [exec_btnEdge_open (k := 2) hv hg hopen, buttonAction_select, otherAxis_eq]
  rfl

/-- Settles O33: no action writes a parameter or sends a byte, and the identity leaves the state as it is. -/
theorem fourthButtonClosesItsGate : Obligations.FourthButtonClosesItsGate := by
  intro s g hv hg hopen
  refine ⟨_, exec_btnEdge_open (k := 3) hv hg hopen, rfl, buttonAction_cfg 3 s, buttonAction_tx 3 s, fun hb => ?_⟩
  rw [buttonAction_fourth, btn3Action_identity s hb]
  rfl

/-! ### The graph of the modes (R145) -/

/-- R51, the row of the mode: of the operations but RESET only an edge on button 0 or 1 writes register 32. -/
theorem edge_of_mode_mem_writes {c : Config} {i : Instr} (hi : i ≠ .reset) (h : 32 ∈ writes c i) :
    ∃ k, i = .btnEdge k ∧ (k = 0 ∨ k = 1) := by
  cases i with
  | reset => exact absurd rfl hi
  | btnEdge k =>
    refine ⟨k, rfl, by_contra fun hk => ?_⟩
    -- neither gate register is 32, nor is the selector
    simp only [writes, if_neg hk, List.mem_append, List.mem_cons, List.not_mem_nil, or_false] at h
    obtain hgate | hsel := h
    · omega
    · split at hsel <;> simp at hsel
  | pidStep a | pwmStep a => cases a <;> simp [writes, axisBit] at h
  | gateTimeout g => rw [writes, List.mem_singleton] at h; omega
  | tick | serialRx | sample | aoutStep | cmdNomove | cmdRight | cmdLeft | cmdUp | cmdDown | cmdEnd | cmdInvalid
  | playbackStep => simp [writes] at h

theorem edge_of_mode_ne {i : Instr} {s t : State} (hb : s.cfg.btn3 = .identity) (hi : i ≠ .reset)
    (h : exec i s = .next t) (hmove : t.mode ≠ s.mode) : ∃ k, i = .btnEdge k ∧ (k = 0 ∨ k = 1) :=
  edge_of_mode_mem_writes hi (by_contra fun hn => hmove ((registerAgrees_exec hb hi h hn).mode rfl))

/-- The arcs of button 0. -/
theorem joystickToggle_arc (c : Config) (m : Mode) :
    (m = .sensorTracking ∧ joystickToggle c m = .scripted) ∨
      (m = .scripted ∧ joystickToggle c m = .sensorTracking) ∨ (m = .replay ∧ joystickToggle c m = c.joyFromReplay) := by
  cases m with
  | sensorTracking => exact .inl ⟨rfl, rfl⟩
  | scripted => exact .inr (.inl ⟨rfl, rfl⟩)
  | replay => exact .inr (.inr ⟨rfl, rfl⟩)

/-- The arcs of button 1. -/
theorem replayToggle_arc (m : Mode) :
    (m = .replay ∧ replayToggle m = .sensorTracking) ∨ (m ≠ .replay ∧ replayToggle m = .replay) := by
  by_cases hm : m = .replay
  · exact .inl ⟨hm, by rw [replayToggle_eq, if_pos hm]⟩
  · exact .inr ⟨hm, by rw [replayToggle_eq, if_neg hm]⟩

/-- Settles O34: only an edge on button 0 or 1 writes the mode, a closed gate would drop it, and an open one runs the
toggle of its button. -/
theorem modeMovesOnlyByAcceptedEdges : Obligations.ModeMovesOnlyByAcceptedEdges := by
  intro i s t hb hi h hmove
  obtain ⟨k, rfl, hk⟩ := edge_of_mode_ne hb hi h hmove
  obtain ⟨-, g, hg, ⟨-, rfl⟩ | ⟨hopen, rfl⟩⟩ := execBtnEdge_cases h
  · exact absurd rfl hmove
  · refine ⟨k, g, rfl, hg, hopen, ?_⟩
    obtain rfl | rfl := hk
    · exact .inl ⟨rfl, joystickToggle_arc s.cfg s.mode⟩
    · exact .inr ⟨rfl, replayToggle_arc s.mode⟩

end Sys2Proof.Machine
end

section
/-! PROOFS. The command FIFO (44_command_fifo.md): a received byte is appended and echoed, or answered by a full queue
(R150 to R159); a playback plays the entry at the read cursor (R160, R161), and a replay the bytes in arrival order
(R164, R166).

Every operation that receives a byte does what SERIAL_RX does with it, so R151 to R157 and R159 are the cases of R150.
The replay of a queue is two runs, of the appends and then of the playbacks short of the last entry, and one playback
more. -/

namespace Sys2Proof.Machine

/-! ### Received bytes (R150 to R159) -/

/-- What R150 asks of an append: the command at the write cursor, no other entry changed, and the registers. -/
theorem received_spec (b : Byte) (s : State) :
    Memory.read (received b s).qMem s.qWr = some (enc (commandOf b)) ∧
      (∀ a, a ≠ s.qWr → Memory.read (received b s).qMem a = Memory.read s.qMem a) ∧
      received b s = { s with
        qMem := (received b s).qMem
        qWr := s.qWr + 1
        qCount := s.qCount + 1
        qRd := if s.qCount = 0 then 0 else s.qRd
        qPbCnt := if s.qCount = 0 then 0 else s.qPbCnt
        tx := s.tx ++ [echoOf b] } :=
  ⟨Memory.read_write_same _ _ _, fun _ ha => Memory.read_write_other _ _ _ _ ha, rfl⟩

/-- Settles O35. -/
theorem receivedByteIsAppendedOrRejected : Obligations.ReceivedByteIsAppendedOrRejected := by
  intro s b hv hw
  by_cases hfull : s.qCount = 1024
  · exact ⟨_, exec_serialRx_full hv hfull, by rw [if_pos hfull]; rfl⟩
  · exact ⟨_, exec_serialRx_received hv hfull (hw hfull), by rw [if_neg hfull]; exact received_spec b s⟩

/-- R150: an operation that receives a byte does what SERIAL_RX does with it. -/
theorem exec_eq_serialRx_of_receivedByte {n : Nat} {i : Instr} {b : Byte} (hi : receivedByte i = some b)
    (hwf : i.wf n = true) (s : State) : exec i s = exec (.serialRx b) s := by
  have hclass : i = .serialRx b ∨ decodeSerial b = i := by
    cases i <;> cases hi
    case serialRx => exact .inl rfl
    case cmdInvalid => exact .inr (decodeSerial_of_not_inAlphabet (by simpa [Instr.wf] using hwf))
    all_goals exact .inr rfl
  obtain rfl | rfl := hclass
  · rfl
  · exact byteClassesAgreeWithSerialRx s b

/-- Settles O38: SERIAL_RX of the byte finds the queue full. -/
theorem fullQueueRejectsEveryByte : Obligations.FullQueueRejectsEveryByte := by
  intro s i b hv hfull hi hwf
  rw [exec_eq_serialRx_of_receivedByte hi hwf]
  exact exec_serialRx_full hv hfull

/-- Settles O36: each class has a byte with its code and its reply, which SERIAL_RX appends to a queue with room. -/
theorem eachByteClassStoresItsCommand : Obligations.EachByteClassStoresItsCommand := by
  intro s i code echo hv hroom hw hclass
  obtain ⟨b, hi, hwf, rfl, rfl⟩ : ∃ b, receivedByte i = some b ∧ i.wf s.cfg.nGates = true ∧
      enc (commandOf b) = code ∧ echoOf b = echo := by
    obtain hexact | ⟨b, hb, rfl, rfl, rfl⟩ := hclass
    · simp only [List.mem_cons, List.not_mem_nil, or_false, Prod.mk.injEq] at hexact
      rcases hexact with ⟨rfl, rfl, rfl⟩ | ⟨rfl, rfl, rfl⟩ | ⟨rfl, rfl, rfl⟩ | ⟨rfl, rfl, rfl⟩ | ⟨rfl, rfl, rfl⟩ |
        ⟨rfl, rfl, rfl⟩ <;> exact ⟨_, rfl, rfl, rfl, rfl⟩
    · obtain ⟨hcmd, hecho⟩ := commandOf_of_not_inAlphabet hb
      exact ⟨b, rfl, by rw [Instr.wf, hb]; rfl, by rw [hcmd]; rfl, hecho⟩
  rw [exec_eq_serialRx_of_receivedByte hi hwf]
  exact ⟨_, exec_serialRx_received hv hroom hw, received_spec b s⟩

/-! ### Playback (R160, R161) -/

theorem synth_eq_commandMapping (cfg : Config) (c : Command) : synth cfg c = commandMapping (synthMaxOf cfg) c := by
  cases c <;> rfl

theorem exec_playbackStep_played {s : State} {c : Command} (hv : s.cfg.valid = true) (hlive : s.qRd < s.qCount)
    (hread : Memory.read s.qMem s.qRd = some (enc c)) : exec .playbackStep s = .next (played c s) := by
  rw [exec_playbackStep_eq hv, playback_ok hlive hread]
  rfl

/-- Settles O40. -/
theorem playbackPlaysTheEntryAtTheCursor : Obligations.PlaybackPlaysTheEntryAtTheCursor := by
  intro s c hv
  refine ⟨fun hempty => ?_, fun hlive hread => ⟨synthMaxOf s.cfg, synthMaxOf_toNat hv, ?_⟩⟩
  · rw [exec_playbackStep_eq hv, playback_empty hempty]
    rfl
  · rw [exec_playbackStep_played hv hlive hread, played, synth_eq_commandMapping]

/-! ### A replay (R164, R166) -/

theorem execAll_append_of_next {xs ys : List Instr} {s t : State} (h : execAll xs s = .next t) :
    execAll (xs ++ ys) s = execAll ys t := by
  rw [execAll_append, h]

theorem execAll_cons_of_next {i : Instr} {is : List Instr} {s t : State} (h : exec i s = .next t) :
    execAll (i :: is) s = execAll is t := by
  rw [execAll, h]

/-- Playbacks that stop short of the last entry move the read cursor by one each, and write nothing but SYN beside. -/
theorem execAll_playbackStep_short (n : Nat) {s : State} (hv : s.cfg.valid = true)
    (hmem : ∀ j, j < s.qCount → ∃ c, Memory.read s.qMem j = some (enc c)) (hn : s.qRd + n < s.qCount) :
    ∃ v, execAll (List.replicate n .playbackStep) s = .next { s with syn := v, qRd := s.qRd + n } := by
  induction n generalizing s with
  | zero => exact ⟨s.syn, rfl⟩
  | succ n ih =>
    have hlive : s.qRd < s.qCount := by omega
    obtain ⟨c, hread⟩ := hmem s.qRd hlive
    have hstep := exec_playbackStep_played hv hlive hread
    rw [played, if_neg (by omega)] at hstep
    obtain ⟨v, hrest⟩ := ih (s := { s with syn := synth s.cfg c, qRd := s.qRd + 1 }) hv hmem (by simp only; omega)
    refine ⟨v, ?_⟩
    rw [List.replicate_succ, execAll_cons_of_next hstep, hrest]
    simp only [Nat.add_assoc, Nat.add_comm 1 n]

theorem receivedAll_qRd_of_nonempty (bs : List Byte) {s : State} (h : s.qCount ≠ 0) :
    (receivedAll bs s).qRd = s.qRd := by
  induction bs generalizing s with
  | nil => rfl
  | cons b bs ih => rw [receivedAll_cons, ih (Nat.succ_ne_zero _)]; exact if_neg h

/-- R158: the first byte an empty queue receives zeroes the read cursor. -/
theorem receivedAll_qRd_of_empty {bs : List Byte} {s : State} (h : s.qCount = 0) (hbs : bs ≠ []) :
    (receivedAll bs s).qRd = 0 := by
  cases bs with
  | nil => exact absurd rfl hbs
  | cons b bs => rw [receivedAll_cons, receivedAll_qRd_of_nonempty bs (Nat.succ_ne_zero _)]; exact if_pos h

/-- The queue after the bytes an empty one received: the read cursor at the first, and the commands in arrival order. -/
theorem receivedAll_of_empty {bs : List Byte} {s : State} (hcount : s.qCount = 0) (hwr : s.qWr = 0) (hbs : bs ≠ []) :
    (receivedAll bs s).qRd = 0 ∧ (receivedAll bs s).qWr = bs.length ∧ (receivedAll bs s).qCount = bs.length ∧
      ∀ j (hj : j < bs.length), Memory.read (receivedAll bs s).qMem j = some (enc (commandOf bs[j])) := by
  refine ⟨receivedAll_qRd_of_empty hcount hbs, ?_, ?_, fun j hj => ?_⟩
  · rw [receivedAll_qWr, hwr, Nat.zero_add]
  · rw [receivedAll_qCount, hcount, Nat.zero_add]
  · have hread := receivedAll_read bs s hj
    rwa [hwr, Nat.zero_add, List.getElem?_eq_getElem hj] at hread

/-- Settles O41: `k` playbacks take the read cursor from the first entry to entry `k`, and one more plays it. -/
theorem queuePlaysInArrivalOrder : Obligations.QueuePlaysInArrivalOrder := by
  intro s bs b k hv hcount hwr hlen hk
  obtain ⟨hklt, rfl⟩ := List.getElem?_eq_some_iff.mp hk
  have happend := execAll_serialRx bs hv (hwr.trans hcount.symm) (by rw [hcount, Nat.zero_add]; exact hlen)
  have hbs : bs ≠ [] := List.ne_nil_of_length_pos (Nat.zero_lt_of_lt hklt)
  have hcfg := receivedAll_cfg bs s
  obtain ⟨hrd, hwr', hcount', hread⟩ := receivedAll_of_empty hcount hwr hbs
  generalize receivedAll bs s = u at happend hcfg hrd hwr' hcount' hread
  obtain ⟨v, hshort⟩ := execAll_playbackStep_short k (s := u) (hcfg ▸ hv) (fun j hj => ⟨_, hread j (hcount' ▸ hj)⟩)
    (by rw [hrd, hcount', Nat.zero_add]; exact hklt)
  rw [hrd, Nat.zero_add] at hshort
  obtain ⟨max, hmax, hplay⟩ := (playbackPlaysTheEntryAtTheCursor { u with syn := v, qRd := k } (commandOf bs[k])
    (hcfg ▸ hv)).2 (hcount' ▸ hklt) (hread k hklt)
  rw [List.replicate_succ', execAll_append_of_next happend, execAll_append_of_next hshort, execAll_cons_of_next hplay]
  refine ⟨_, rfl, ⟨max, hmax.trans (by rw [hcfg]), ?_⟩, ?_⟩
  · split <;> rfl
  · simp only [hwr', hcount']
    split <;> rfl

end Sys2Proof.Machine
end

section
/-! PROOFS. The output selector (45_output_selector.md): AOUT_STEP puts out the biased and clamped error of the selected
axis (R170), exactly so for an integer error (R172, D23).

Bias, comparisons and truncation are exact on the words of integers, so there the output is computed on the integers
themselves. -/

namespace Sys2Proof.Machine

open Sys2Proof.F64

/-! ### AOUT_STEP (R170) -/

theorem exec_aoutStep_due {s : State} (hv : s.cfg.valid = true) (hdue : s.aoDue = true) :
    exec .aoutStep s = .next { s with aout := aoutOf (s.ax s.sel).error, aoDue := false } := by
  show execAoutStep s = _
  rw [execAoutStep, configured_of_valid hv, if_pos hdue]

theorem exec_aoutStep_notDue {s : State} (hv : s.cfg.valid = true) (hdue : s.aoDue = false) :
    exec .aoutStep s = .next s := by
  show execAoutStep s = _
  rw [execAoutStep, configured_of_valid hv, if_neg (ne_true_of_eq_false hdue)]

/-- The word of 512.0. -/
theorem ofInt_halfScale : ofInt halfScale = ⟨0x4080000000000000⟩ := by decide +kernel

/-- The word of 1023.0. -/
theorem ofInt_fullScale_sub_one : ofInt (fullScale - 1) = ⟨0x408FF80000000000⟩ := by decide +kernel

/-- Settles O42: the words of R170 are those of HALF_SCALE and FULL_SCALE - 1. -/
theorem analogOutputFollowsTheSelectedError : Obligations.AnalogOutputFollowsTheSelectedError := by
  intro s v hv hsum
  refine ⟨fun hdue => ?_, exec_aoutStep_notDue hv⟩
  rw [exec_aoutStep_due hv hdue, aoutOf, ofInt_halfScale, ofInt_fullScale_sub_one, ← hsum]
  rfl

/-! ### Integer errors (R172, D23) -/

theorem fadd_ofInt {n m : Int} (hn : n.natAbs < 2 ^ 53) (hm : m.natAbs < 2 ^ 53) (hsum : (n + m).natAbs < 2 ^ 53) :
    fadd (ofInt n) (ofInt m) = ofInt (n + m) := by
  obtain ⟨hfinN, hnegN, -⟩ := ofInt_exact hn
  obtain ⟨hfinM, hnegM, -⟩ := ofInt_exact hm
  rw [fadd_eq_sum hfinN hfinM]
  refine sum_ofInt hsum (by rw [ofInt_scaled hn, ofInt_scaled hm, add_mul]) fun hzero => ?_
  -- two integers of sum zero are not both negative
  rw [hnegN, hnegM, ← Bool.decide_and, decide_eq_false_iff_not]
  omega

theorem flt_ofInt_iff {n m : Int} (hn : n.natAbs < 2 ^ 53) (hm : m.natAbs < 2 ^ 53) :
    flt (ofInt n) (ofInt m) = true ↔ n < m := by
  have hone : (0 : Int) < one1074 := by exact_mod_cast one1074_pos
  rw [flt_iff (ofInt_exact hn).1 (ofInt_exact hm).1, ofInt_scaled hn, ofInt_scaled hm]
  exact Int.mul_lt_mul_right hone

theorem ftrunc_ofInt {n : Int} (hn : n.natAbs < 2 ^ 53) : ftrunc (ofInt n) = n := by
  obtain ⟨hfin, hneg, habs⟩ := ofInt_exact hn
  rw [ftrunc_of_isFinite hfin, hneg, habs, Nat.mul_div_cancel _ one1074_pos]
  exact signed_natAbs fun _ => rfl

/-- On the word of an integer, bias, clamp and truncation are those of the integers. -/
theorem aoutOf_ofInt {n : Int} (hlo : -4095 ≤ n) (hhi : n ≤ 4095) :
    aoutOf (ofInt n) = BitVec.ofInt 10 (min (max (n + 512) 0) 1023) := by
  have hsum : fadd (ofInt n) (ofInt halfScale) = ofInt (n + 512) :=
    fadd_ofInt (by omega) (by decide) (by rw [halfScale]; omega)
  have hbelow : flt (ofInt (n + 512)) zero = true ↔ n + 512 < 0 := by
    rw [← ofInt_zero]
    exact flt_ofInt_iff (by omega) (by decide)
  have habove : fgt (ofInt (n + 512)) (ofInt (fullScale - 1)) = true ↔ 1023 < n + 512 :=
    flt_ofInt_iff (by decide) (by omega)
  rw [aoutOf, hsum]
  simp only [hbelow, habove]
  split
  · rw [show min (max (n + 512) 0) 1023 = 0 by omega]
    rfl
  · split
    · rw [show min (max (n + 512) 0) 1023 = 1023 by omega]
      rfl
    · rw [ftrunc_ofInt (by omega), show min (max (n + 512) 0) 1023 = n + 512 by omega]

theorem toNat_ofInt_of_range {w : Nat} {m : Int} (hlo : 0 ≤ m) (hhi : m < 2 ^ w) :
    ((BitVec.ofInt w m).toNat : Int) = m := by
  rw [BitVec.toNat_ofInt, Nat.cast_pow, Nat.cast_ofNat, Int.emod_eq_of_lt hlo hhi, Int.toNat_of_nonneg hlo]

/-- Settles O43: the clamped integer fits the ten bits of the output. -/
theorem analogOutputOfAnIntegerError : Obligations.AnalogOutputOfAnIntegerError := by
  intro s n hv hdue hlo hhi herror
  refine ⟨_, exec_aoutStep_due hv hdue, ?_, rfl⟩
  rw [herror, aoutOf_ofInt hlo hhi]
  exact toNat_ofInt_of_range (by omega) (by omega)

end Sys2Proof.Machine
end

section
/-! PROOFS. The tick and the main loop (46_tick_and_main.md): the four parts of TICK (R180 to R185), the order of the two
axes within a stage of a pass (R186, D31), and the completion of a pass (R188). -/

namespace Sys2Proof.Machine

/-! ### The tick (R180 to R185) -/

/-- The entry a tick of this state would play, if it plays one, is live and holds a command (R62, R183). -/
def DueEntryLive (s : State) : Prop :=
  s.qPbCnt = 0 → s.qCount ≠ 0 → s.qRd < s.qCount ∧ ∃ c, Memory.read s.qMem s.qRd = some (enc c)

/-- R183: the playback part of a tick completes when the entry it would play is live. -/
theorem tickPlayback_completes {s : State} (hlive : DueEntryLive s) : ∃ t, tickPlayback s = .ok t := by
  rw [tickPlayback_eq]
  by_cases hdue : s.qPbCnt = 0
  · rw [if_pos hdue]
    by_cases hempty : s.qCount = 0
    · exact ⟨_, by rw [playback_empty hempty]; rfl⟩
    · obtain ⟨hrd, c, hread⟩ := hlive hdue hempty
      exact ⟨_, by rw [playback_ok hrd hread]; rfl⟩
  · exact ⟨_, by rw [if_neg hdue]; rfl⟩

/-- The other three parts leave what the playback reads alone (R185), so it completes from the state they leave. -/
theorem exec_tick_completes {s : State} (hv : s.cfg.valid = true) (hlive : DueEntryLive s) :
    ∃ t, exec .tick s = .next t := by
  obtain ⟨t, ht⟩ : ∃ t, tickPlayback (tickStart s) = .ok t :=
    tickPlayback_completes (by rw [tickStart_eq]; exact hlive)
  refine ⟨t, ?_⟩
  show execTick s = _
  rw [execTick, configured_of_valid hv, ht, finish_ok]

/-- Settles O44: a tick that completes leaves the four parts of R180, the playback from the state before the tick. -/
theorem tickAdvancesEveryCounter : Obligations.TickAdvancesEveryCounter := by
  intro s hv hlive
  obtain ⟨t, htick⟩ := exec_tick_completes hv hlive
  obtain ⟨u, hplay, rfl⟩ := exec_tick_inv htick
  refine ⟨u, ?_, ?_⟩
  · rw [exec_playbackStep_eq hv]
    by_cases hdue : s.qPbCnt = 0
    · rw [if_pos hdue] at hplay ⊢
      rw [hplay, finish_ok]
    · rwa [if_neg hdue] at hplay ⊢
  · rw [htick, funext gate_tick_eq, incMod, incMod, incMod]

/-! ### The order of the axes (R186, D31) -/

/-- The state a PID step leaves. -/
def pidStepped (a : AxisId) (s : State) : State := s.setAx a (pidUpdate s.cfg (s.ax a))

/-- The state a PWM step leaves. -/
def pwmStepped (a : AxisId) (en : Bool) (s : State) : State := s.setPin a (pinsOf s.cfg (s.ax a) en)

theorem exec_pidStep_stepped (a : AxisId) {s : State} (hv : s.cfg.valid = true) :
    exec (.pidStep a) s = .next (pidStepped a s) := exec_pidStep_of_valid a hv

theorem exec_pwmStep_stepped (a : AxisId) (en : Bool) {s : State} (hv : s.cfg.valid = true) :
    exec (.pwmStep a en) s = .next (pwmStepped a en s) := exec_pwmStep_of_valid a en hv

theorem State.setAx_comm {a b : AxisId} (hab : a ≠ b) (s : State) (p q : AxisRegs) :
    (s.setAx a p).setAx b q = (s.setAx b q).setAx a p := by
  cases a <;> cases b
  · exact absurd rfl hab
  · rfl
  · rfl
  · exact absurd rfl hab

theorem State.setPin_comm {a b : AxisId} (hab : a ≠ b) (s : State) (p q : Pins) :
    (s.setPin a p).setPin b q = (s.setPin b q).setPin a p := by
  cases a <;> cases b
  · exact absurd rfl hab
  · rfl
  · rfl
  · exact absurd rfl hab

theorem State.setAx_setPin_comm (a b : AxisId) (s : State) (r : AxisRegs) (p : Pins) :
    (s.setAx a r).setPin b p = (s.setPin b p).setAx a r := by
  cases a <;> cases b <;> rfl

theorem pidStepped_comm {a b : AxisId} (hab : a ≠ b) (s : State) :
    pidStepped b (pidStepped a s) = pidStepped a (pidStepped b s) := by
  unfold pidStepped
  rw [State.ax_setAx_other _ _ _ _ hab, State.ax_setAx_other _ _ _ _ hab.symm, State.setAx_cfg, State.setAx_cfg,
    State.setAx_comm hab]

theorem pwmStepped_comm {a b : AxisId} (hab : a ≠ b) (ena enb : Bool) (s : State) :
    pwmStepped b enb (pwmStepped a ena s) = pwmStepped a ena (pwmStepped b enb s) := by
  unfold pwmStepped
  rw [State.ax_setPin, State.ax_setPin, State.setPin_cfg, State.setPin_cfg, State.setPin_comm hab]

theorem pidStepped_pwmStepped_comm {a b : AxisId} (hab : a ≠ b) (en : Bool) (s : State) :
    pwmStepped b en (pidStepped a s) = pidStepped a (pwmStepped b en s) := by
  unfold pidStepped pwmStepped
  rw [State.ax_setAx_other _ _ _ _ hab.symm, State.ax_setPin, State.setAx_cfg, State.setPin_cfg,
    State.setAx_setPin_comm]

/-- Two operations that complete in every valid configuration, with updates that commute, have one outcome in either
order; an invalid configuration refuses both orders alike. -/
theorem execAll_pair_comm {i j : Instr} {f g : State → State}
    (hi : ∀ {s}, s.cfg.valid = true → exec i s = .next (f s))
    (hj : ∀ {s}, s.cfg.valid = true → exec j s = .next (g s)) {s : State} (hfg : g (f s) = f (g s)) :
    execAll [i, j] s = execAll [j, i] s := by
  by_cases hv : s.cfg.valid = true
  · have hvf : (f s).cfg.valid = true := by rwa [exec_cfg (hi hv)]
    have hvg : (g s).cfg.valid = true := by rwa [exec_cfg (hj hv)]
    rw [execAll_cons_of_next (hi hv), execAll_cons_of_next (hj hvf), execAll_cons_of_next (hj hv),
      execAll_cons_of_next (hi hvg), hfg]
  · rw [Bool.not_eq_true] at hv
    simp only [execAll, invalidConfigurationIsRefused _ s hv]

/-- Settles O23: each of the four pairs steps different axes, whose updates commute. -/
theorem stepsOfTheTwoAxesCommute : Obligations.StepsOfTheTwoAxesCommute := by
  intro s en0 en1
  have hne : AxisId.axis0 ≠ AxisId.axis1 := AxisId.noConfusion
  exact ⟨execAll_pair_comm (exec_pidStep_stepped _) (exec_pidStep_stepped _) (pidStepped_comm hne s),
    execAll_pair_comm (exec_pwmStep_stepped _ _) (exec_pwmStep_stepped _ _) (pwmStepped_comm hne en0 en1 s),
    execAll_pair_comm (exec_pidStep_stepped _) (exec_pwmStep_stepped _ _) (pidStepped_pwmStepped_comm hne en1 s),
    execAll_pair_comm (exec_pidStep_stepped _) (exec_pwmStep_stepped _ _) (pidStepped_pwmStepped_comm hne.symm en0 s)⟩

/-! ### A pass of the main loop (R186, R188) -/

theorem exec_aoutStep_completes {s : State} (hv : s.cfg.valid = true) : ∃ t, exec .aoutStep s = .next t := by
  cases hdue : s.aoDue with
  | true => exact ⟨_, exec_aoutStep_due hv hdue⟩
  | false => exact ⟨_, exec_aoutStep_notDue hv hdue⟩

/-- The operations of a pass are events, and under a valid configuration no state stops one. -/
theorem exec_completes_of_mem_mainPass {c0 c1 c2 c3 : Nat} {en0 en1 : Bool} {i : Instr} {s : State}
    (hi : i ∈ mainPass c0 c1 c2 c3 en0 en1) (hv : s.cfg.valid = true) :
    i.isMicro = false ∧ ∃ t, exec i s = .next t := by
  simp only [mainPass, List.mem_cons, List.not_mem_nil, or_false] at hi
  obtain rfl | rfl | rfl | rfl | rfl | rfl := hi
  · exact ⟨rfl, _, exec_sample_of_source hv rfl⟩
  · exact ⟨rfl, _, exec_pidStep_stepped .axis0 hv⟩
  · exact ⟨rfl, _, exec_pidStep_stepped .axis1 hv⟩
  · exact ⟨rfl, _, exec_pwmStep_stepped .axis0 en0 hv⟩
  · exact ⟨rfl, _, exec_pwmStep_stepped .axis1 en1 hv⟩
  · exact ⟨rfl, exec_aoutStep_completes hv⟩

/-- A sequence whose every operation is enabled under the invariants and keeps them completes and keeps them. -/
theorem execAll_completes {is : List Instr} {s : State} (h : Inv s)
    (his : ∀ i ∈ is, ∀ u, Inv u → ∃ t, exec i u = .next t ∧ Inv t) : ∃ t, execAll is s = .next t ∧ Inv t := by
  induction is generalizing s with
  | nil => exact ⟨s, rfl, h⟩
  | cons i is ih =>
    obtain ⟨hhead, htail⟩ := List.forall_mem_cons.mp his
    obtain ⟨u, hu, hinv⟩ := hhead s h
    rw [execAll_cons_of_next hu]
    exact ih hinv htail

/-- Settles O55: every operation of a pass is enabled and keeps the invariants, so the pass completes and keeps them. -/
theorem mainPassCompletes : Obligations.MainPassCompletes := by
  intro s c0 c1 c2 c3 en0 en1 h
  refine execAll_completes h fun i hi u hu => ?_
  obtain ⟨hmicro, t, ht⟩ := exec_completes_of_mem_mainPass hi hu.config
  exact ⟨t, ht, inv_exec hu hmicro ht⟩

end Sys2Proof.Machine
end

section
/-! PROOFS. Exceptions (60_exceptions.md): what is transmitted (R200, R84), and that nothing stops a run but a stimulus
that encodes no operation (R204, R222). Reset (70_reset_and_hazards.md): R230 and R233.

In a state that meets the invariants every operation of the configuration completes, the micro-operations among them:
each place where a meaning can stop asks for a gate that is there, for a live entry with a command in it, or for room
in the storage. A step runs what the decoder gives, and the decoder gives operations of the configuration only. -/

namespace Sys2Proof.Machine

/-! ### RESET (R230, R233) -/

theorem exec_reset_of_valid {s : State} (hv : s.cfg.valid = true) : exec .reset s = .next (resetState s) :=
  configured_of_valid hv _

/-- Settles O10: RESET leaves `resetState`, whose fields are the values of R230. -/
theorem resetGivesEveryRegisterItsValue : Obligations.ResetGivesEveryRegisterItsValue := by
  intro s hv
  refine ⟨resetState s, exec_reset_of_valid hv, fun a => ?_, fun a => ?_, ?_⟩
  · cases a <;> rfl
  · cases a <;> rfl
  · and_intros <;> rfl

/-- R233: what `resetState` takes over from the state before is the configuration, the storage, the bytes sent and the
input. -/
theorem resetState_forgets (s : State) :
    { resetState s with qMem := [], tx := [], env := [] } = State.resetWith s.cfg := rfl

/-- Settles O11. -/
theorem resetForgetsTheStateBefore : Obligations.ResetForgetsTheStateBefore := by
  intro s u s' u' hcfg hs hu
  rw [exec_reset_inv hs, exec_reset_inv hu, resetState_forgets, resetState_forgets, hcfg]

/-! ### What is transmitted (R200, R84) -/

theorem playback_tx {s t : State} (h : playback s = .ok t) : t.tx = s.tx := by
  obtain ⟨-, rfl⟩ | ⟨-, c, -, -, rfl⟩ := playback_cases h
  · rfl
  · exact played_tx c s

theorem exec_tick_tx {s t : State} (h : exec .tick s = .next t) : t.tx = s.tx := by
  obtain ⟨u, hu, rfl⟩ := exec_tick_inv h
  obtain rfl | ⟨c, -, -, rfl⟩ := tickPlayed_cases hu
  · rfl
  · exact played_tx c s

theorem execBtnEdge_tx {k : BitVec 2} {s t : State} (h : execBtnEdge k s = .next t) : t.tx = s.tx := by
  obtain ⟨-, g, -, ⟨-, rfl⟩ | ⟨-, rfl⟩⟩ := execBtnEdge_cases h
  · rfl
  · exact buttonAction_tx k s

/-- An operation that receives no byte sends none. -/
theorem exec_tx_of_no_byte {i : Instr} {s t : State} (hi : receivedByte i = none) (h : exec i s = .next t) :
    t.tx = s.tx := by
  cases i with
  | reset => rw [exec_reset_inv h]; rfl
  | tick => exact exec_tick_tx h
  | btnEdge k => exact execBtnEdge_tx h
  | sample c0 c1 c2 c3 => obtain ⟨v, x, y, -, -, -, rfl⟩ := exec_sample_inv h; rfl
  | pidStep a => obtain ⟨r, -, rfl⟩ := exec_pidStep_inv h; exact State.setAx_tx s r a
  | pwmStep a en => rw [exec_pwmStep_inv h, State.setPin_tx]
  | aoutStep => obtain ⟨-, v, -, rfl⟩ | ⟨-, rfl⟩ := exec_aoutStep_inv h <;> rfl
  | gateTimeout g => obtain ⟨x, -, rfl⟩ := exec_gateTimeout_inv h; rfl
  | playbackStep => exact playback_tx (exec_playbackStep_inv h)
  | serialRx | cmdNomove | cmdRight | cmdLeft | cmdUp | cmdDown | cmdEnd | cmdInvalid => exact nomatch hi

/-- A received byte is answered by one reply: QueueFull's, or its own. -/
theorem exec_serial_tx {i : Instr} {b : Byte} {s t : State} (hi : receivedByte i = some b) (h : exec i s = .next t) :
    t.tx = s.tx ++ if s.qCount = queueCap then Condition.queueFull.code else [echoOf b] := by
  obtain ⟨hfull, rfl⟩ | ⟨hroom, -, rfl⟩ := exec_serial_inv hi h
  · rw [if_pos hfull, transmit_tx]
  · rw [if_neg hroom, transmit_tx]
    rfl

/-- Settles O48. -/
theorem onlySerialOperationsTransmit : Obligations.OnlySerialOperationsTransmit := by
  intro i s t h
  cases hi : receivedByte i with
  | none => exact (exec_tx_of_no_byte hi h).trans (List.append_nil _).symm
  | some b => exact exec_serial_tx hi h

/-! ### Completion under the invariants (R204, R222) -/

/-- Under a valid configuration an edge stops only where its gate is missing. -/
theorem exec_btnEdge_completes {k : BitVec 2} {s : State} (hv : s.cfg.valid = true)
    (hk : s.cfg.gateOf.of k < s.gates.length) : ∃ t, exec (.btnEdge k) s = .next t := by
  have hg := List.getElem?_eq_getElem hk
  cases hopen : s.gates[s.cfg.gateOf.of k].isOpen with
  | true => exact ⟨_, exec_btnEdge_open hv hg hopen⟩
  | false => exact ⟨_, exec_btnEdge_closed hv hg hopen⟩

theorem exec_gateTimeout_completes {g : BitVec 2} {s : State} (hv : s.cfg.valid = true)
    (hg : g.toNat < s.gates.length) : ∃ t, exec (.gateTimeout g) s = .next t :=
  ⟨_, gateTimeoutReopensTheGate s g _ hv (List.getElem?_eq_getElem hg)⟩

section Completes

variable {s : State} (h : Inv s)
include h

/-- R56 with the storage behind it: on a queue that is not empty the entry at the cursor is live. -/
theorem entry_at_cursor_live (h0 : s.qCount ≠ 0) : s.qRd < s.qCount ∧ ∃ c, Memory.read s.qMem s.qRd = some (enc c) := by
  obtain ⟨-, -, hrd, -⟩ := h.queue
  obtain ⟨-, hlive⟩ := h.storage
  have hlt := hrd (Nat.pos_of_ne_zero h0)
  exact ⟨hlt, hlive _ hlt⟩

theorem exec_playbackStep_completes : ∃ t, exec .playbackStep s = .next t := by
  rw [exec_playbackStep_eq h.config]
  by_cases h0 : s.qCount = 0
  · exact ⟨s, by rw [playback_empty h0, finish_ok]⟩
  · obtain ⟨hlt, c, hread⟩ := entry_at_cursor_live h h0
    exact ⟨played c s, by rw [playback_ok hlt hread, finish_ok]⟩

/-- A byte is rejected by a full queue, and a queue that is not full has room at its write cursor. -/
theorem exec_serialRx_completes (b : Byte) : ∃ t, exec (.serialRx b) s = .next t := by
  obtain ⟨hcap, hwr, -⟩ := h.queue
  by_cases hfull : s.qCount = queueCap
  · exact ⟨_, exec_serialRx_full h.config hfull⟩
  · exact ⟨_, exec_serialRx_received h.config hfull (hwr ▸ Nat.lt_of_le_of_ne hcap hfull)⟩

theorem exec_serial_completes {i : Instr} {b : Byte} {n : Nat} (hi : receivedByte i = some b) (hwf : i.wf n = true) :
    ∃ t, exec i s = .next t := by
  rw [exec_eq_serialRx_of_receivedByte hi hwf]
  exact exec_serialRx_completes h b

/-- Every operation of the configuration is enabled in every state that meets the invariants. -/
theorem exec_completes {i : Instr} (hwf : i.wf s.cfg.nGates = true) : ∃ t, exec i s = .next t := by
  have hv := h.config
  obtain ⟨hlen, -⟩ := h.gates
  cases i with
  | reset => exact ⟨_, exec_reset_of_valid hv⟩
  | tick => exact exec_tick_completes hv fun _ => entry_at_cursor_live h
  | btnEdge k =>
    obtain ⟨-, -, -, -, -, -, -, hgate⟩ := Config.bounds hv
    exact exec_btnEdge_completes hv (hlen ▸ hgate k)
  | sample c0 c1 c2 c3 => exact ⟨_, exec_sample_of_source hv rfl⟩
  | pidStep a => exact ⟨_, exec_pidStep_of_valid a hv⟩
  | pwmStep a en => exact ⟨_, exec_pwmStep_of_valid a en hv⟩
  | aoutStep => exact exec_aoutStep_completes hv
  | gateTimeout g => exact exec_gateTimeout_completes hv (hlen ▸ of_decide_eq_true hwf)
  | playbackStep => exact exec_playbackStep_completes h
  | serialRx | cmdNomove | cmdRight | cmdLeft | cmdUp | cmdDown | cmdEnd | cmdInvalid =>
    exact exec_serial_completes h rfl hwf

end Completes

/-- Settles O53. -/
theorem everyEventIsEnabled : Obligations.EveryEventIsEnabled :=
  fun _ _ h _ hwf => exec_completes h hwf

/-- Settles O54: the step waits, refuses what does not decode, or runs an operation of the configuration. -/
theorem nothingIsFatal : Obligations.NothingIsFatal := by
  obtain ⟨-, waits⟩ := stepRefusesWhatEncodesNothing
  intro s h
  cases henv : s.env with
  | nil => exact .inl ⟨s, waits s henv⟩
  | cons x rest =>
    cases hdec : decode s.cfg.nGates x with
    | error e => exact .inr ⟨x, rest, e, rfl, hdec, step_of_undecodable henv hdec⟩
    | ok i =>
      obtain ⟨hwf, -⟩ := encodeInvertsDecode _ x i hdec
      rw [step_of_decode henv hdec]
      exact .inl (exec_completes (inv_withEnv h rest) hwf)

end Sys2Proof.Machine
end
